-- ==== Sys2Proof/Word.lean ====
section
/-! DEFINITION. The widths of the machine's values: bytes, 16-bit words, 12-bit addresses, nibbles, register numbers. -/

namespace Sys2Proof

/-- A byte: a general register (R11), a timer (R16), a byte of memory (R7), the immediate `nn` (R81). -/
abbrev Byte := BitVec 8

/-- A 16-bit word: an instruction (R80), `I` and `pc` (R12), a return address (R13). -/
abbrev Word := BitVec 16

/-- The 12-bit address field `nnn` (R81). -/
abbrev Addr12 := BitVec 12

/-- A nibble: 4 bits (R20); the fields `class` and `n` (R81). -/
abbrev Nibble := BitVec 4

/-- The number of a general register, `0x0` to `0xF`, named by a 4-bit field (R32, R84). -/
abbrev RegIx := Fin 16

end Sys2Proof
end

