-- ==== Sys2Proof/Syntax.lean ====
section
/-! DEFINITION. The instructions: one constructor for each of the 18 rows of the opcode map (R88), with the fields of R81. -/

namespace Sys2Proof

/-- An instruction. Every field of the word beyond the opcode class is an operand, also those that the rule ignores, so that
a word and its instruction determine each other. -/
inductive Instr where
  /-- `CLS`, 0XE0 (R150). `x` is the unexamined nibble (R86, D5; log 8). -/
  | cls (x : Nibble)
  /-- `RET`, 0XEE (R120). `x` is the unexamined nibble (R86, D5; log 8). -/
  | ret (x : Nibble)
  /-- `NOP_0NNN`, class 0 with a low byte other than E0 and EE (R170, D7; log 10). -/
  | nop0nnn (nnn : Addr12)
  /-- `JP nnn`, 1NNN (R121). -/
  | jp (nnn : Addr12)
  /-- `CALL nnn`, 2NNN (R122). -/
  | call (nnn : Addr12)
  /-- `SE Vx, nn`, 3XNN (R126). -/
  | seImm (x : RegIx) (nn : Byte)
  /-- `SNE Vx, nn`, 4XNN (R127). -/
  | sneImm (x : RegIx) (nn : Byte)
  /-- `SE Vx, Vy`, 5XYN (R128). `n` is ignored (R87, D6; log 9). -/
  | seReg (x y : RegIx) (n : Nibble)
  /-- `LD Vx, nn`, 6XNN (R140). -/
  | ldImm (x : RegIx) (nn : Byte)
  /-- `ADD Vx, nn`, 7XNN (R141). -/
  | addImm (x : RegIx) (nn : Byte)
  /-- `NOP_8XYN` (R171). -/
  | nop8xyn (x y : RegIx) (n : Nibble)
  /-- `SNE Vx, Vy`, 9XYN (R129). `n` is ignored (R87, D6; log 9). -/
  | sneReg (x y : RegIx) (n : Nibble)
  /-- `LD I, nnn`, ANNN (R142). -/
  | ldI (nnn : Addr12)
  /-- `NOP_BNNN` (R172). -/
  | nopBnnn (nnn : Addr12)
  /-- `NOP_CXNN` (R173). -/
  | nopCxnn (x : RegIx) (nn : Byte)
  /-- `DRW Vx, Vy, n`, DXYN (R152); `n` is the height, 0 to 15 rows. -/
  | drw (x y : RegIx) (n : Nibble)
  /-- `NOP_EXNN` (R174). -/
  | nopExnn (x : RegIx) (nn : Byte)
  /-- `NOP_FXNN` (R175). -/
  | nopFxnn (x : RegIx) (nn : Byte)
  deriving DecidableEq, Repr

/-- The row of the opcode table an instruction stands for, by the table's own name (R88). -/
def Instr.mnemonic : Instr → String
  | .cls _ => "CLS"
  | .ret _ => "RET"
  | .nop0nnn _ => "NOP_0NNN"
  | .jp _ => "JP"
  | .call _ => "CALL"
  | .seImm _ _ => "SE_IMM"
  | .sneImm _ _ => "SNE_IMM"
  | .seReg _ _ _ => "SE_REG"
  | .ldImm _ _ => "LD_IMM"
  | .addImm _ _ => "ADD_IMM"
  | .nop8xyn _ _ _ => "NOP_8XYN"
  | .sneReg _ _ _ => "SNE_REG"
  | .ldI _ => "LD_I"
  | .nopBnnn _ => "NOP_BNNN"
  | .nopCxnn _ _ => "NOP_CXNN"
  | .drw _ _ _ => "DRW"
  | .nopExnn _ _ => "NOP_EXNN"
  | .nopFxnn _ _ => "NOP_FXNN"

end Sys2Proof
end

