-- ==== Sys2Proof/WellFormed.lean ====
section
/-! DEFINITION. Which terms of Instr stand for a word. The operand types hold every field to its width, so one check is left:
NOP_0NNN excludes the low bytes that select CLS and RET (R86, R88). -/

namespace Sys2Proof

/-- The low byte of an address field. -/
abbrev Addr12.lowByte (nnn : Addr12) : Byte := nnn.setWidth 8

/-- Whether an instruction is one that some word encodes: `NOP_0NNN` is every class-0 word "whose `nn` is neither `0xE0` nor
`0xEE`" (R170); every other row takes every value of its fields (R85). -/
def Instr.wf : Instr → Bool
  | .nop0nnn nnn => nnn.lowByte != 0xE0#8 && nnn.lowByte != 0xEE#8
  | .cls _ => true
  | .ret _ => true
  | .jp _ => true
  | .call _ => true
  | .seImm _ _ => true
  | .sneImm _ _ => true
  | .seReg _ _ _ => true
  | .ldImm _ _ => true
  | .addImm _ _ => true
  | .nop8xyn _ _ _ => true
  | .sneReg _ _ _ => true
  | .ldI _ => true
  | .nopBnnn _ => true
  | .nopCxnn _ _ => true
  | .drw _ _ _ => true
  | .nopExnn _ _ => true
  | .nopFxnn _ _ => true

end Sys2Proof
end

