-- ==== Sys2Proof/Decode.lean ====
section
/-! DEFINITION. The decoder: the fields of a word (R81), the opcode map (R88) and its dispatch (R89), decoding of bytes, and
the encoder written from the same table. -/

namespace Sys2Proof

/-- `class = w[15:12]` (R81). -/
def Word.opClass (w : Word) : Nibble := w.extractLsb' 12 4

/-- The second nibble `w[11:8]` as it stands (R81). -/
def Word.xBits (w : Word) : Nibble := w.extractLsb' 8 4

/-- The third nibble `w[7:4]` as it stands (R81). -/
def Word.yBits (w : Word) : Nibble := w.extractLsb' 4 4

/-- The register number `x = w[11:8]` (R81, R84). -/
def Word.x (w : Word) : RegIx := w.xBits.toFin

/-- The register number `y = w[7:4]` (R81, R84). -/
def Word.y (w : Word) : RegIx := w.yBits.toFin

/-- `n = w[3:0]` (R81). -/
def Word.n (w : Word) : Nibble := w.extractLsb' 0 4

/-- `nn = w[7:0]` (R81). -/
def Word.nn (w : Word) : Byte := w.extractLsb' 0 8

/-- `nnn = w[11:0]` (R81). -/
def Word.nnn (w : Word) : Addr12 := w.extractLsb' 0 12

/-- Class 0 dispatches further on `nn`; the `x` field is not examined (R86). -/
def decodeClass0 (w : Word) : Instr :=
  if w.nn = 0xE0#8 then .cls w.xBits
  else if w.nn = 0xEE#8 then .ret w.xBits
  else .nop0nnn w.nnn

/-- The decoder: a pure, total function of the word (R82), the case list of R89. -/
def decode (w : Word) : Instr :=
  match w.opClass.toNat with
  | 0x0 => decodeClass0 w
  | 0x1 => .jp w.nnn
  | 0x2 => .call w.nnn
  | 0x3 => .seImm w.x w.nn
  | 0x4 => .sneImm w.x w.nn
  | 0x5 => .seReg w.x w.y w.n
  | 0x6 => .ldImm w.x w.nn
  | 0x7 => .addImm w.x w.nn
  | 0x8 => .nop8xyn w.x w.y w.n
  | 0x9 => .sneReg w.x w.y w.n
  | 0xA => .ldI w.nnn
  | 0xB => .nopBnnn w.nnn
  | 0xC => .nopCxnn w.x w.nn
  | 0xD => .drw w.x w.y w.n
  | 0xE => .nopExnn w.x w.nn
  | _ => .nopFxnn w.x w.nn

/-- One row of the opcode map: a word selects it when `(w & mask) = match` (R88). -/
structure OpcodeRow where
  mnemonic : String
  mask : Word
  value : Word
  deriving DecidableEq, Repr

/-- Whether a word selects a row (R88). -/
def OpcodeRow.selects (row : OpcodeRow) (w : Word) : Bool := (w &&& row.mask) == row.value

/-- The opcode map of R88, in the table's order, in which CLS and RET stand before NOP_0NNN. -/
def opcodeRows : List OpcodeRow :=
  [⟨"CLS", 0xF0FF#16, 0x00E0#16⟩, ⟨"RET", 0xF0FF#16, 0x00EE#16⟩, ⟨"NOP_0NNN", 0xF000#16, 0x0000#16⟩]
  ++ [⟨"JP", 0xF000#16, 0x1000#16⟩, ⟨"CALL", 0xF000#16, 0x2000#16⟩, ⟨"SE_IMM", 0xF000#16, 0x3000#16⟩]
  ++ [⟨"SNE_IMM", 0xF000#16, 0x4000#16⟩, ⟨"SE_REG", 0xF000#16, 0x5000#16⟩, ⟨"LD_IMM", 0xF000#16, 0x6000#16⟩]
  ++ [⟨"ADD_IMM", 0xF000#16, 0x7000#16⟩, ⟨"NOP_8XYN", 0xF000#16, 0x8000#16⟩, ⟨"SNE_REG", 0xF000#16, 0x9000#16⟩]
  ++ [⟨"LD_I", 0xF000#16, 0xA000#16⟩, ⟨"NOP_BNNN", 0xF000#16, 0xB000#16⟩, ⟨"NOP_CXNN", 0xF000#16, 0xC000#16⟩]
  ++ [⟨"DRW", 0xF000#16, 0xD000#16⟩, ⟨"NOP_EXNN", 0xF000#16, 0xE000#16⟩, ⟨"NOP_FXNN", 0xF000#16, 0xF000#16⟩]

/-- The rows whose pattern a word meets, in the map's order; the first takes precedence (R88). -/
def rowsSelected (w : Word) : List OpcodeRow := opcodeRows.filter (·.selects w)

/-- Two bytes as a word, the byte at the lower address first: big-endian (R60). -/
def wordOfBytes (hi lo : Byte) : Word := hi ++ lo

/-- Why a list of bytes holds no instruction. -/
inductive DecodeError where
  /-- Fewer than two bytes: an instruction is exactly one 16-bit word (R80). No two bytes are refused (R82). -/
  | truncated
  deriving DecidableEq, Repr

/-- The instruction at the front of a list of bytes, and the bytes after it (log 23). -/
def decodeBytes : List Byte → Except DecodeError (Instr × List Byte)
  | hi :: lo :: rest => .ok (decode (wordOfBytes hi lo), rest)
  | [_] => .error .truncated
  | [] => .error .truncated

/-- A word of class `c` with the fields `x`, `y`, `n` (R81). -/
def wordXYN (c : Nibble) (x y : RegIx) (n : Nibble) : Word := c ++ BitVec.ofFin (w := 4) x ++ BitVec.ofFin (w := 4) y ++ n

/-- A word of class `c` with the fields `x`, `nn` (R81). -/
def wordXNN (c : Nibble) (x : RegIx) (nn : Byte) : Word := c ++ BitVec.ofFin (w := 4) x ++ nn

/-- A word of class `c` with the field `nnn` (R81). -/
def wordNNN (c : Nibble) (nnn : Addr12) : Word := c ++ nnn

/-- The encoder: the one word of each row with the operands placed in the fields of R81 (R88, R93). -/
def encode : Instr → Word
  | .cls x => wordXNN 0x0#4 x.toFin 0xE0#8
  | .ret x => wordXNN 0x0#4 x.toFin 0xEE#8
  | .nop0nnn nnn => wordNNN 0x0#4 nnn
  | .jp nnn => wordNNN 0x1#4 nnn
  | .call nnn => wordNNN 0x2#4 nnn
  | .seImm x nn => wordXNN 0x3#4 x nn
  | .sneImm x nn => wordXNN 0x4#4 x nn
  | .seReg x y n => wordXYN 0x5#4 x y n
  | .ldImm x nn => wordXNN 0x6#4 x nn
  | .addImm x nn => wordXNN 0x7#4 x nn
  | .nop8xyn x y n => wordXYN 0x8#4 x y n
  | .sneReg x y n => wordXYN 0x9#4 x y n
  | .ldI nnn => wordNNN 0xA#4 nnn
  | .nopBnnn nnn => wordNNN 0xB#4 nnn
  | .nopCxnn x nn => wordXNN 0xC#4 x nn
  | .drw x y n => wordXYN 0xD#4 x y n
  | .nopExnn x nn => wordXNN 0xE#4 x nn
  | .nopFxnn x nn => wordXNN 0xF#4 x nn

/-- The two bytes of a word as memory holds them, the high byte first (R60). -/
def bytesOfWord (w : Word) : List Byte := [w.extractLsb' 8 8, w.extractLsb' 0 8]

/-- The word the opcode table numbers as `w` with `nbits` bits: the bits above `nbits` are 0, and none stand above the one
16-bit word of an instruction (R80). -/
def tableWord (nbits w : Nat) : Word := BitVec.ofNat 16 (w % 2 ^ nbits)

/-- What the decoder reads from an instruction whose bits the opcode table numbers as `w`. -/
def decodeTableWord (nbits w : Nat) : Option Instr :=
  match decodeBytes (bytesOfWord (tableWord nbits w)) with
  | .ok (i, _) => some i
  | .error _ => none

end Sys2Proof
end

