-- ==== Sys2Proof/Config.lean ====
section
/-! DEFINITION. What is fixed for the machine: the sizes of 00_scope.md section 4, the host's configuration, and the
free value of the tick. The three parameters that the spec's decisions set (FONT, callOverflowRollsBack, TIMERS_WIRED) stand
in Machine/Parameters.lean. -/

namespace Sys2Proof.Config

/-- `MEM_SIZE` (R7). -/
abbrev memSize : Nat := 4096

/-- `PROG_START`: where the program is loaded and execution begins (R8). -/
abbrev progStart : Nat := 0x200

/-- `MAX_ROM = MEM_SIZE - PROG_START` (R8, R242). -/
abbrev maxRom : Nat := 3584

/-- `FONT_BASE`: the first address of the font table (R9). -/
abbrev fontBase : Nat := 0x050

/-- `FONT_END`: the first address after the font table (R9). -/
abbrev fontEnd : Nat := 0x0A0

/-- `STACK_DEPTH` (R13). -/
abbrev stackDepth : Nat := 12

/-- `DISP_H`: rows of the framebuffer (R14). -/
abbrev dispH : Nat := 32

/-- `DISP_W`: columns of the framebuffer (R14). -/
abbrev dispW : Nat := 64

/-- `TICK_HZ` (R16): wall-clock time, which no rule reads (R255). -/
abbrev tickHz : Nat := 60

/-- `IPS` at its default (R17): wall-clock pacing, which no rule reads (R253). -/
abbrev ips : Nat := 700

/-- The scale factor handed to the renderer, at its default (R18). -/
abbrev displayScale : Nat := 20

/-- A display colour. The spec names the two of the default "white on black" (R18) and lets the host set others, for which it gives
no code: a number stands for each of them (log 27). -/
inductive Colour where
  | white
  | black
  | other (code : Nat)
  deriving DecidableEq, Repr

/-- The colour of a pixel that is on, at its default (R18). -/
abbrev foreground : Colour := .white

/-- The colour of a pixel that is off, at its default (R18). -/
abbrev background : Colour := .black

/-- What the host sets once at startup: the display colours, the scale factor and `IPS` (R17, R18, R230). -/
structure HostConfig where
  foreground : Colour
  background : Colour
  scale : Nat
  ips : Nat
  deriving DecidableEq, Repr

/-- The configuration at its defaults (R17, R18). -/
abbrev hostDefault : HostConfig := ⟨foreground, background, displayScale, ips⟩

/-- The free draw `tick` of the n-th iteration (R100, R213, D9): wall-clock time decides it, so nothing here does.
FREE VALUE (log 4): an opaque constant, so a claim holds for every schedule of ticks with at most one in an iteration. -/
opaque tickDraw : Nat → Bool

end Sys2Proof.Config
end

