-- ==== Sys2Proof/Machine/Parameters.lean ====
section
/-! DEFINITION. The three parameters that the spec's decisions set (R19): FONT, callOverflowRollsBack, TIMERS_WIRED, each at
the spec's default. No statement of the package rests on a value given here: each names the parameter. -/

namespace Sys2Proof.Config

/-- The glyphs 0 to 7 of the default `FONT`, five bytes each (R10). PRESUMED (D1, general knowledge; log 1), unsafe. -/
def fontLow : List Byte :=
  [0xF0#8, 0x90#8, 0x90#8, 0x90#8, 0xF0#8] ++ [0x20#8, 0x60#8, 0x20#8, 0x20#8, 0x70#8]
  ++ [0xF0#8, 0x10#8, 0xF0#8, 0x80#8, 0xF0#8] ++ [0xF0#8, 0x10#8, 0xF0#8, 0x10#8, 0xF0#8]
  ++ [0x90#8, 0x90#8, 0xF0#8, 0x10#8, 0x10#8] ++ [0xF0#8, 0x80#8, 0xF0#8, 0x10#8, 0xF0#8]
  ++ [0xF0#8, 0x80#8, 0xF0#8, 0x90#8, 0xF0#8] ++ [0xF0#8, 0x10#8, 0x20#8, 0x40#8, 0x40#8]

/-- The glyphs 8 to F of the default `FONT` (R10). PRESUMED (D1, general knowledge; log 1), unsafe. -/
def fontHigh : List Byte :=
  [0xF0#8, 0x90#8, 0xF0#8, 0x90#8, 0xF0#8] ++ [0xF0#8, 0x90#8, 0xF0#8, 0x10#8, 0xF0#8]
  ++ [0xF0#8, 0x90#8, 0xF0#8, 0x90#8, 0x90#8] ++ [0xE0#8, 0x90#8, 0xE0#8, 0x90#8, 0xE0#8]
  ++ [0xF0#8, 0x80#8, 0x80#8, 0x80#8, 0xF0#8] ++ [0xE0#8, 0x90#8, 0x90#8, 0x90#8, 0xE0#8]
  ++ [0xF0#8, 0x80#8, 0xF0#8, 0x80#8, 0xF0#8] ++ [0xF0#8, 0x80#8, 0xF0#8, 0x80#8, 0x80#8]

/-- `FONT`: 16 glyphs of 5 bytes, glyph `k` at `5 * k` (R10). -/
def font : List Byte := fontLow ++ fontHigh

/-- `callOverflowRollsBack` (R122). DESIGN CHOICE (the spec's own, D2; log 2), unsafe. -/
def callOverflowRollsBack : Bool := true

/-- `TIMERS_WIRED` (R215). DESIGN CHOICE (the spec's own, D8; log 3), unsafe only in states no run reaches (R47). -/
def timersWired : Bool := true

end Sys2Proof.Config
end

