-- ==== Sys2Proof/Machine/State.lean ====
section
/-! DEFINITION. The state of the machine, plain data: the tuple of R30, the host's configuration, and two fields of the model's own that say what
happens next (the host's schedule and the count of tick draws); why a step can stop; the state after reset. -/

namespace Sys2Proof.Machine

/-- The run state (R48): names only, no numbers (D18). -/
inductive RunState where
  | running
  | paused
  | quit
  deriving DecidableEq, Repr

/-- An event of the host's input poll (R205). -/
inductive HostEvent where
  /-- `Key(k, pressed)` (R206). -/
  | key (k : Fin 16) (pressed : Bool)
  /-- `Pause` (R208). -/
  | pause
  /-- `Resume` (R207). -/
  | resume
  /-- `Quit` (R209). -/
  | quit
  deriving DecidableEq, Repr

/-- One move of the whole machine (R238): a host event, or the core's own iteration. -/
inductive Move where
  | host (e : HostEvent)
  | iterate
  deriving DecidableEq, Repr

/-- The labels of the three runtime faults (R200). They are the model's way to name a fault and no state: the core records
no cause (D15). -/
inductive FaultKind where
  | pcOutOfBounds
  | stackOverflow
  | stackUnderflow
  deriving DecidableEq, Repr

/-- Memory: the cells that differ from the reset contents, at strictly rising addresses (log 20). Ops.lean reads and writes
it; `Memory.wf` is the form. -/
structure Memory where
  cells : List Host.Cell
  deriving DecidableEq, Repr

/-- The framebuffer `fb[r][c]`: 32 rows of 64 pixels, `true` for on (R49). -/
abbrev Framebuffer := Vector (Vector Bool 64) 32

/-- The machine's state: R30, one field for each line of its table, the configuration `conf`, and the model's own `moves` and
`draws`. -/
structure State where
  /-- Memory, 4096 bytes (R52). -/
  mem : Memory
  /-- The general registers `V[0]` to `V[15]` (R32). -/
  v : Vector Byte 16
  /-- The index register `I` (R40). -/
  i : Word
  /-- The program counter (R35). -/
  pc : Word
  /-- The return addresses (R42). -/
  stack : Vector Word 12
  /-- The stack cursor, the count of valid entries, 0 to 12 (R42, R43). -/
  sp : Fin 13
  /-- The delay timer `DT` (R46). -/
  dt : Byte
  /-- The sound timer `ST` (R46). -/
  st : Byte
  /-- The framebuffer (R49). -/
  fb : Framebuffer
  /-- The keypad, `true` for pressed (R51). -/
  key : Vector Bool 16
  /-- The run state (R48). -/
  run : RunState
  /-- The host's configuration, set at construction and no part of R30's tuple: fixed for the machine (R230; log 27). -/
  conf : Config.HostConfig
  /-- MODEL'S OWN: the moves to come, first first; after the last, iterations only (R238; log 15). -/
  moves : List Move
  /-- MODEL'S OWN: how many tick draws have been taken (R100; log 4). -/
  draws : Nat
  deriving DecidableEq, Repr

/-- Why a step stops. -/
inductive Fault where
  /-- Raised by `nextMove` (so by `step`) and by `hostEvent` when `run = QUIT`: the loop has exited and no step is enabled
  (R211, R238). Safe: the machine has no further state there (log 18). The core's three runtime faults are no stops: each is
  a next state in which `run = PAUSED` (R201). -/
  | machineQuit
  deriving DecidableEq, Repr

/-- What has no meaning. -/
inductive Refusal where
  /-- Raised by an arm of `exec` for an instruction without a meaning; no arm does. Safe. -/
  | notModelled (mnemonic : String)
  /-- Raised by `construct` for a ROM of this length, which is 0 or above 3584: no machine exists (R203, R242). Safe. -/
  | romLength (length : Nat)
  deriving DecidableEq, Repr

/-- The machine right after reset: every value of R241 with nothing placed at 0x200. It is the machine constructed from the
ROM of one zero byte (log 21). The stack entries, the framebuffer and the keypad hold the spec's own decisions (D10, D11:
logs 5, 6, 7); the configuration is at its defaults (R17, R18); `moves` and `draws` are the model's (logs 15, 4). -/
def State.reset : State where
  mem := ⟨[]⟩
  v := Vector.replicate 16 0#8
  i := 0#16
  pc := 0x200#16
  stack := Vector.replicate 12 0#16
  sp := 0
  dt := 0#8
  st := 0#8
  fb := Vector.replicate 32 (Vector.replicate 64 false)
  key := Vector.replicate 16 false
  run := .running
  conf := Config.hostDefault
  moves := []
  draws := 0

end Sys2Proof.Machine
end

