-- ==== Sys2Proof/Machine/Ops.lean ====
section
/-! DEFINITION. The named operations over the state: memory, the fetch, the program counter, the call stack, the framebuffer,
taking a fault and the return from one, the tick. -/

namespace Sys2Proof.Machine

/-! ### Memory (20_memory.md) -/

/-- What an address that memory does not list reads as: the reset contents, FONT at `0x050 .. 0x09F` and zero elsewhere
(R67, R241). -/
def resetByte (a : Nat) : Byte :=
  if Config.fontBase ≤ a ∧ a < Config.fontEnd then Config.font.getD (a - Config.fontBase) 0#8 else 0#8

/-- The byte a list of cells gives an address. -/
def cellsGet : List Host.Cell → Nat → Byte
  | [], a => resetByte a
  | (k, b) :: rest, a => if k = a then b else cellsGet rest a

/-- A cell put in front of higher ones, unless it says what the reset contents say. -/
def cellsCons (a : Nat) (b : Byte) (rest : List Host.Cell) : List Host.Cell :=
  if b = resetByte a then rest else (a, b) :: rest

/-- The list of cells after one byte is written, in the canonical form again. -/
def cellsSet : List Host.Cell → Nat → Byte → List Host.Cell
  | [], a, b => cellsCons a b []
  | (k, c) :: rest, a, b =>
    if k < a then (k, c) :: cellsSet rest a b
    else if k = a then cellsCons a b rest
    else cellsCons a b ((k, c) :: rest)

/-- Whether a list of cells is in the canonical form at the addresses from `lo` up: strictly rising addresses inside memory,
no cell that says what the reset contents say. -/
def cellsWf : Nat → List Host.Cell → Bool
  | _, [] => true
  | lo, (a, b) :: rest =>
    decide (lo ≤ a) && decide (a < Config.memSize) && b != resetByte a && cellsWf (a + 1) rest

/-- Whether memory is in the canonical form, in which equal memories are equal data (log 20). -/
def Memory.wf (m : Memory) : Bool := cellsWf 0 m.cells

/-- `MemRead(addr, 1)`: the byte at an address, defined only for `addr < MEM_SIZE` (R23). -/
def Memory.read? (m : Memory) (a : Nat) : Option Byte :=
  if a < Config.memSize then some (cellsGet m.cells a) else none

/-- `MemWrite(addr, 1, b)`, which only construction uses (R23, R66). No address at or above `MEM_SIZE` exists, and nothing is
stored there (log 20). -/
def Memory.write (m : Memory) (a : Nat) (b : Byte) : Memory :=
  if a < Config.memSize then ⟨cellsSet m.cells a b⟩ else m

/-- Bytes written one after another from an address up, as construction writes the ROM (R241). -/
def Memory.writeBytes (m : Memory) (a : Nat) : List Byte → Memory
  | [] => m
  | b :: rest => (m.write a b).writeBytes (a + 1) rest

/-- The instruction word at an address, big-endian (R60), without regard to alignment (R62). There is one exactly when both
its bytes are inside memory, the check of R103. -/
def fetchWord? (m : Memory) (a : Nat) : Option Word :=
  match m.read? a, m.read? (a + 1) with
  | some hi, some lo => some (wordOfBytes hi lo)
  | _, _ => none

/-! ### Single fields -/

/-- The state with another program counter. -/
def State.setPc (s : State) (a : Word) : State := { s with pc := a }

/-- The state with another index register. -/
def State.setI (s : State) (a : Word) : State := { s with i := a }

/-- The state with other general registers. -/
def State.setRegs (s : State) (v : Vector Byte 16) : State := { s with v := v }

/-- The state with another framebuffer. -/
def State.setFb (s : State) (fb : Framebuffer) : State := { s with fb := fb }

/-- The state with other timers. -/
def State.setTimers (s : State) (dt st : Byte) : State := { s with dt := dt, st := st }

/-- The state with another run state. -/
def State.setRun (s : State) (r : RunState) : State := { s with run := r }

/-- The state with one key pressed or released (R206). -/
def State.setKey (s : State) (k : Fin 16) (pressed : Bool) : State := { s with key := s.key.set k.val pressed k.isLt }

/-- The state with another memory. -/
def State.setMem (s : State) (m : Memory) : State := { s with mem := m }

/-- The state with another stack and cursor. -/
def State.setStack (s : State) (stack : Vector Word 12) (sp : Fin 13) : State := { s with stack := stack, sp := sp }

/-- The state with another configuration, which construction alone sets (R230). -/
def State.setConf (s : State) (conf : Config.HostConfig) : State := { s with conf := conf }

/-- The state with another list of moves to come (the model's own field). -/
def State.setMoves (s : State) (ms : List Move) : State := { s with moves := ms }

/-- The state after one more tick draw is taken (the model's own field). -/
def State.countDraw (s : State) : State := { s with draws := s.draws + 1 }

/-! ### The program counter -/

/-- The fetch-advance, `pc <- (pc + 2) mod 2^16` (R104). -/
def State.advance (s : State) : State := s.setPc (s.pc + 2#16)

/-- "Skip next instruction": a further `pc <- pc + 2` (R124). -/
def State.skip (s : State) : State := s.setPc (s.pc + 2#16)

/-- The skip of R126 to R129, taken when its condition holds. -/
def State.skipIf (c : Bool) (s : State) : State := if c then s.skip else s

/-- `a`, the address of the executing instruction: a rule runs with `pc = a + 2` (R25, R104), so `a` is `pc - 2`.
DEDUCED (log 17), exact. -/
def State.instrAddr (s : State) : Word := s.pc - 2#16

/-! ### The call stack (R42) -/

/-- `stack[sp] <- ra; sp <- sp + 1`, or nothing when the stack is full (R122). -/
def State.push? (s : State) (ra : Word) : Option State :=
  if h : s.sp.val < Config.stackDepth then
    some (s.setStack (s.stack.set s.sp.val ra h) ⟨s.sp.val + 1, Nat.succ_lt_succ h⟩)
  else none

/-- `sp <- sp - 1` and the entry `stack[sp]`, which is not cleared, or nothing when the stack is empty (R120). -/
def State.pop? (s : State) : Option (Word × State) :=
  if h : s.sp.val = 0 then none
  else
    have hlt : s.sp.val - 1 < 12 := by have := s.sp.isLt; omega
    some (s.stack[s.sp.val - 1], s.setStack s.stack ⟨s.sp.val - 1, Nat.lt_succ_of_lt hlt⟩)

/-! ### Taking a fault, and the return from one (60_exceptions.md) -/

/-- `pc` after a fault, the table of R200. The two faults of instructions are raised with `pc = a + 2`; PcOutOfBounds is raised
before the fetch, with `pc` as it stands. -/
def faultPc (k : FaultKind) (s : State) : Word :=
  match k with
  | .pcOutOfBounds => s.pc
  | .stackOverflow => if Config.callOverflowRollsBack then s.instrAddr else s.pc
  | .stackUnderflow => s.instrAddr

/-- `raise Fault(kind)`: `run <- PAUSED`, and `pc` as R200 says; every other piece of state is kept and nothing is saved
(R24, R201). The iteration ends here: see `endIteration` (log 19). -/
def State.raiseFault (k : FaultKind) (s : State) : State := (s.setPc (faultPc k s)).setRun .paused

/-- The only return from a fault, the host's resume: it restores nothing, because nothing was saved (R207, R237). In another
run state it has no effect (D16; log 14). -/
def State.resume (s : State) : State := if s.run = .paused then s.setRun .running else s

/-- The host's pause (R208); in another run state it has no effect (D16; log 14). -/
def State.pause (s : State) : State := if s.run = .running then s.setRun .paused else s

/-- The host's quit (R209). -/
def State.quit (s : State) : State := s.setRun .quit

/-! ### The tick (R213, R214) -/

/-- One timer over the end of an iteration: a nonzero timer loses 1 when a tick is taken (R214). A timer at zero stays at
zero whatever the draw, so the draw is looked at last. -/
def countDown (tick : Bool) (t : Byte) : Byte := if t = 0#8 then t else if tick then t - 1#8 else t

/-- The state part of `if tick then Tick()`: the timer decrement, when TIMERS_WIRED holds (R106, R213, R214, R215). -/
def State.tickTimers (tick : Bool) (s : State) : State :=
  if Config.timersWired then s.setTimers (countDown tick s.dt) (countDown tick s.st) else s

end Sys2Proof.Machine
end

