-- ==== Sys2Proof/Machine/Operands.lean ====
section
/-! DEFINITION. The operand forms: the register operand, the address operand, the sprite's origin and height, and the
framebuffer's pixels. -/

namespace Sys2Proof.Machine

/-- `V[x]` read (R22, R32). No register is hardwired. -/
def State.readV (s : State) (x : RegIx) : Byte := s.v[x.val]

/-- `V[x] <- b` (R22, R32). -/
def State.writeV (s : State) (x : RegIx) (b : Byte) : State := s.setRegs (s.v.set x.val b x.isLt)

/-- `zext_16(nnn)`, the address operand of JP, CALL and LD I (R83). -/
def zextAddr (nnn : Addr12) : Word := nnn.setWidth 16

/-- `ox = V[x] mod 64`, the sprite's first column (R153). -/
def State.originX (s : State) (x : RegIx) : Nat := (s.readV x).toNat % Config.dispW

/-- `oy = V[y] mod 32`, the sprite's first row (R153). -/
def State.originY (s : State) (y : RegIx) : Nat := (s.readV y).toNat % Config.dispH

/-- `fb[r][c]` (R49). -/
def pixel (fb : Framebuffer) (r : Fin 32) (c : Fin 64) : Bool := fb[r.val][c.val]

/-- `fb[r][c] <- 1 - fb[r][c]` (R158). -/
def invertPixel (fb : Framebuffer) (r : Fin 32) (c : Fin 64) : Framebuffer :=
  fb.set r.val (fb[r.val].set c.val (!pixel fb r c) c.isLt) r.isLt

/-- The framebuffer with every pixel off (R150). -/
def blankScreen : Framebuffer := Vector.replicate 32 (Vector.replicate 64 false)

/-- Bit `7 - col` of a sprite byte, the bit of column `col`: most significant bit first (R158). -/
def spriteBit (b : Byte) (col : Nat) : Bool := b.getLsbD (7 - col)

end Sys2Proof.Machine
end

