-- ==== Sys2Proof/Machine/Flags.lean ====
section
/-! DEFINITION. The only flag of the core, the collision flag in `V[15]` (R39), which DRW alone writes as a flag. -/

namespace Sys2Proof.Machine

/-- The register that holds the collision flag (R39). -/
abbrev flagReg : RegIx := 15

/-- The value of `V[15]` for a collision or none (R152, R159). -/
def collisionByte (hit : Bool) : Byte := if hit then 1#8 else 0#8

/-- Whether the flag is up after one more sprite bit meets a pixel: a set bit on a pixel that was on raises it, and once up it
stays up (R158). -/
def collides (hit bit wasOn : Bool) : Bool := hit || (bit && wasOn)

/-- `V[15]` written as the collision flag (R152). -/
def State.setCollision (s : State) (hit : Bool) : State := s.writeV flagReg (collisionByte hit)

end Sys2Proof.Machine
end

