-- ==== Sys2Proof/Machine/ControlFlow.lean ====
section
/-! DEFINITION. The meanings of RET, JP, CALL and the four skips (41_control_flow.md). Every meaning runs with `pc = a + 2`. -/

namespace Sys2Proof.Machine

open Host (Outcome)

/-- `RET`: pops the program counter; on an empty stack raises StackUnderflow with `pc = a` (R120, C2). `_x` is not examined
(R86). -/
def execRet (_x : Nibble) (s : State) : Outcome State Fault Refusal :=
  match s.pop? with
  | some (ra, t) => .next (t.setPc ra)
  | none => .next (s.raiseFault .stackUnderflow)

/-- `JP nnn`: `pc <- zext_16(nnn)` (R121). -/
def execJp (nnn : Addr12) (s : State) : Outcome State Fault Refusal := .next (s.setPc (zextAddr nnn))

/-- `CALL nnn`: pushes `pc = a + 2` and jumps; on a full stack raises StackOverflow (R122). -/
def execCall (nnn : Addr12) (s : State) : Outcome State Fault Refusal :=
  match s.push? s.pc with
  | some t => .next (t.setPc (zextAddr nnn))
  | none => .next (s.raiseFault .stackOverflow)

/-- `SE Vx, nn`: skips if `V[x] = nn` (R126). -/
def execSeImm (x : RegIx) (nn : Byte) (s : State) : Outcome State Fault Refusal := .next (s.skipIf (s.readV x == nn))

/-- `SNE Vx, nn`: skips if `V[x] != nn` (R127). -/
def execSneImm (x : RegIx) (nn : Byte) (s : State) : Outcome State Fault Refusal := .next (s.skipIf (s.readV x != nn))

/-- `SE Vx, Vy`: skips if `V[x] = V[y]` (R128). `_n` is ignored (R87). -/
def execSeReg (x y : RegIx) (_n : Nibble) (s : State) : Outcome State Fault Refusal :=
  .next (s.skipIf (s.readV x == s.readV y))

/-- `SNE Vx, Vy`: skips if `V[x] != V[y]` (R129). `_n` is ignored (R87). -/
def execSneReg (x y : RegIx) (_n : Nibble) (s : State) : Outcome State Fault Refusal :=
  .next (s.skipIf (s.readV x != s.readV y))

end Sys2Proof.Machine
end

