-- ==== Sys2Proof/Machine/Display.lean ====
section
/-! DEFINITION. The meanings of CLS and DRW (43_display.md). Every meaning runs with `pc = a + 2`. -/

namespace Sys2Proof.Machine

open Host (Outcome)

/-- `CLS`: every pixel off, `V[15]` kept (R150). `_x` is not examined (R86). -/
def execCls (_x : Nibble) (s : State) : Outcome State Fault Refusal := .next (s.setFb blankScreen)

/-- What a draw works on: the framebuffer, and whether the collision flag is up so far (log 22). -/
abbrev Canvas := Framebuffer × Bool

/-- One sprite bit at one pixel: a set bit inverts the pixel and raises the flag if the pixel was on (R158). -/
def drawPixel (bit : Bool) (r : Fin 32) (c : Fin 64) (d : Canvas) : Canvas :=
  if bit then (invertPixel d.1 r c, collides d.2 bit (pixel d.1 r c)) else d

/-- The columns `col ..` of one sprite row, `left` of them: at the first column at or beyond 64 the rest of the row is skipped
(R157). -/
def drawCols (b : Byte) (ox : Nat) (r : Fin 32) : (left col : Nat) → Canvas → Canvas
  | 0, _, d => d
  | left + 1, col, d =>
    if h : ox + col < Config.dispW then
      drawCols b ox r left (col + 1) (drawPixel (spriteBit b col) r ⟨ox + col, h⟩ d)
    else d

/-- The rows `row ..` of a sprite, `left` of them: the draw ends at the first row whose byte is outside memory (R155; log 12) or
whose target row is at or beyond 32 (R156). `base + row` is a natural number and does not wrap (R155). -/
def drawRows (m : Memory) (base ox oy : Nat) : (left row : Nat) → Canvas → Canvas
  | 0, _, d => d
  | left + 1, row, d =>
    match m.read? (base + row) with
    | none => d
    | some b =>
      if h : oy + row < Config.dispH then
        drawRows m base ox oy left (row + 1) (drawCols b ox ⟨oy + row, h⟩ 8 0 d)
      else d

/-- `DRW Vx, Vy, n` (R152): the origin is read first (R153, R154, D4; log 11), the flag starts at 0 (R154), the rows are drawn,
and `V[15]` is 1 exactly when a pixel was turned off (R159). -/
def execDrw (x y : RegIx) (n : Nibble) (s : State) : Outcome State Fault Refusal :=
  let d := drawRows s.mem s.i.toNat (s.originX x) (s.originY y) n.toNat 0 (s.fb, false)
  .next ((s.setFb d.1).setCollision d.2)

end Sys2Proof.Machine
end

