-- ==== Sys2Proof/Machine/RegisterLoadAdd.lean ====
section
/-! DEFINITION. The meanings of LD Vx, ADD Vx and LD I (42_register_load_add.md). Every meaning runs with `pc = a + 2`. -/

namespace Sys2Proof.Machine

open Host (Outcome)

/-- `LD Vx, nn`: `V[x] <- nn` (R140). -/
def execLdImm (x : RegIx) (nn : Byte) (s : State) : Outcome State Fault Refusal := .next (s.writeV x nn)

/-- `ADD Vx, nn`: `V[x] <- (V[x] + nn) mod 256`, and no flag (R141). -/
def execAddImm (x : RegIx) (nn : Byte) (s : State) : Outcome State Fault Refusal := .next (s.writeV x (s.readV x + nn))

/-- `LD I, nnn`: `I <- zext_16(nnn)` (R142). -/
def execLdI (nnn : Addr12) (s : State) : Outcome State Fault Refusal := .next (s.setI (zextAddr nnn))

end Sys2Proof.Machine
end

