-- ==== Sys2Proof/Machine/Unimplemented.lean ====
section
/-! DEFINITION. The meanings of the six no-op rows (44_unimplemented.md): nothing beyond the fetch-advance, which has been done
when a meaning runs. They are the source's stated behaviour (R90, R176). -/

namespace Sys2Proof.Machine

open Host (Outcome)

/-- Nothing: the rule leaves `pc = a + 2` and changes nothing else (R90, R109). -/
def noEffect (s : State) : Outcome State Fault Refusal := .next s

/-- `NOP_0NNN` (R170, D7; log 10). -/
def execNop0nnn (_nnn : Addr12) (s : State) : Outcome State Fault Refusal := noEffect s

/-- `NOP_8XYN` (R171). -/
def execNop8xyn (_x _y : RegIx) (_n : Nibble) (s : State) : Outcome State Fault Refusal := noEffect s

/-- `NOP_BNNN` (R172). -/
def execNopBnnn (_nnn : Addr12) (s : State) : Outcome State Fault Refusal := noEffect s

/-- `NOP_CXNN` (R173). -/
def execNopCxnn (_x : RegIx) (_nn : Byte) (s : State) : Outcome State Fault Refusal := noEffect s

/-- `NOP_EXNN` (R174): the keypad is not read. -/
def execNopExnn (_x : RegIx) (_nn : Byte) (s : State) : Outcome State Fault Refusal := noEffect s

/-- `NOP_FXNN` (R175): no timer, no memory, no `I`, no wait. -/
def execNopFxnn (_x : RegIx) (_nn : Byte) (s : State) : Outcome State Fault Refusal := noEffect s

end Sys2Proof.Machine
end

