-- ==== Sys2Proof/Machine/Dispatch.lean ====
section
/-! DEFINITION. `Execute(decode(w), a)` (R105): one arm for each constructor of Instr. It runs after the fetch-advance of R104, with
`pc = a + 2` (log 17). -/

namespace Sys2Proof.Machine

def exec (i : Instr) (s : State) : Host.Outcome State Fault Refusal :=
  match i with
  | .cls x => Sys2Proof.Machine.execCls x s
  | .ret x => Sys2Proof.Machine.execRet x s
  | .nop0nnn nnn => Sys2Proof.Machine.execNop0nnn nnn s
  | .jp nnn => Sys2Proof.Machine.execJp nnn s
  | .call nnn => Sys2Proof.Machine.execCall nnn s
  | .seImm x nn => Sys2Proof.Machine.execSeImm x nn s
  | .sneImm x nn => Sys2Proof.Machine.execSneImm x nn s
  | .seReg x y n => Sys2Proof.Machine.execSeReg x y n s
  | .ldImm x nn => Sys2Proof.Machine.execLdImm x nn s
  | .addImm x nn => Sys2Proof.Machine.execAddImm x nn s
  | .nop8xyn x y n => Sys2Proof.Machine.execNop8xyn x y n s
  | .sneReg x y n => Sys2Proof.Machine.execSneReg x y n s
  | .ldI nnn => Sys2Proof.Machine.execLdI nnn s
  | .nopBnnn nnn => Sys2Proof.Machine.execNopBnnn nnn s
  | .nopCxnn x nn => Sys2Proof.Machine.execNopCxnn x nn s
  | .drw x y n => Sys2Proof.Machine.execDrw x y n s
  | .nopExnn x nn => Sys2Proof.Machine.execNopExnn x nn s
  | .nopFxnn x nn => Sys2Proof.Machine.execNopFxnn x nn s

end Sys2Proof.Machine
end

