-- ==== Sys2Proof/Machine/Cycle.lean ====
section
/-! DEFINITION. The core's iteration (40_cycle.md), the host's events (60_exceptions.md), construction (70_reset_and_hazards.md),
the moves of the whole machine (R238), and what the core hands to the renderer and the audio device. -/

namespace Sys2Proof.Machine

open Host (Outcome)

/-- The end of an iteration: no tick if the instruction raised a fault, which is when it left `run = PAUSED`; otherwise
`if tick then Tick()` (R106, R24; log 19). -/
def endIteration (tick : Bool) (s : State) : State :=
  match s.run with
  | .running => s.tickTimers tick
  | .paused => s
  | .quit => s

/-- `Iteration(tick)` (R100), for `run = RUNNING`: the bound check (R103), the fetch and the fetch-advance (R104), one instruction
(R105), perhaps the tick (R106). -/
def iteration (tick : Bool) (s : State) : Outcome State Fault Refusal :=
  match fetchWord? s.mem s.pc.toNat with
  | none => .next (s.raiseFault .pcOutOfBounds)
  | some w =>
    match exec (decode w) s.advance with
    | .next t => .next (endIteration tick t)
    | .fault f => .fault f
    | .refused r => .refused r

/-- One pass of the loop: in RUNNING an iteration, with one fresh tick draw (R100, R213; log 4); in PAUSED nothing but the
presentation (R101, R210); in QUIT nothing is enabled (R211). -/
def loopPass (s : State) : Outcome State Fault Refusal :=
  match s.run with
  | .running => iteration (Config.tickDraw s.draws) s.countDraw
  | .paused => .next s
  | .quit => .fault .machineQuit

/-- What an event of the poll does to the state while `run != QUIT` (R206 to R209). -/
def applyEvent (e : HostEvent) (s : State) : State :=
  match e with
  | .key k pressed => s.setKey k pressed
  | .pause => s.pause
  | .resume => s.resume
  | .quit => s.quit

/-- A host step, enabled whenever `run != QUIT` (R205, R211, R238). -/
def hostEvent (e : HostEvent) (s : State) : Outcome State Fault Refusal :=
  match s.run with
  | .running => .next (applyEvent e s)
  | .paused => .next (applyEvent e s)
  | .quit => .fault .machineQuit

/-- The step relation of the whole machine as a function (R238): the next move is the first of `moves`, and an iteration once no
move is listed (log 15). -/
def nextMove (s : State) : Outcome State Fault Refusal :=
  match s.moves with
  | [] => loopPass s
  | .iterate :: rest => loopPass (s.setMoves rest)
  | .host e :: rest => hostEvent e (s.setMoves rest)

/-- `Construct(R)` (R241), for a ROM of 1 to 3584 bytes; for another length no machine is produced (R242, R203). The host gives its
configuration with the ROM, at startup and nowhere else (R230). -/
def construct (conf : Config.HostConfig) (rom : List Byte) : Outcome State Fault Refusal :=
  if 1 ≤ rom.length ∧ rom.length ≤ Config.maxRom then
    .next ((State.reset.setMem (State.reset.mem.writeBytes Config.progStart rom)).setConf conf)
  else .refused (.romLength rom.length)

/-- The instruction the machine's next step runs: the decoded word at `pc` when the next move is an iteration, `run = RUNNING`
and the check of R103 passes. -/
def currentInstr? (s : State) : Option Instr :=
  match s.moves, s.run with
  | .host _ :: _, _ => none
  | _, .paused => none
  | _, .quit => none
  | _, .running => (fetchWord? s.mem s.pc.toNat).map decode

/-- What the core hands to the renderer: the framebuffer and the configuration of R18, passed through unchanged (R220). -/
structure Frame where
  foreground : Config.Colour
  background : Config.Colour
  scale : Nat
  grid : Framebuffer
  deriving DecidableEq, Repr

/-- The frame of a state: a read-only snapshot of `fb` (R75, R220) with the host's own colours and scale (R18, R230). -/
def frame (s : State) : Frame := ⟨s.conf.foreground, s.conf.background, s.conf.scale, s.fb⟩

/-- The frame that one pass of the loop presents: on the tick of an iteration that did not fault, after the timers (R213), and
on every PAUSED pass (R210); none otherwise. An output of the core and no state (R220; log 24). -/
def loopPresents (s : State) : Option Frame :=
  match s.run with
  | .quit => none
  | .paused => some (frame s)
  | .running =>
    match loopPass s with
    | .next t => if t.run = .running ∧ Config.tickDraw s.draws = true then some (frame t) else none
    | .fault _ => none
    | .refused _ => none

/-- The audio start/stop flag, `ST != 0` (R221). -/
def audioFlag (s : State) : Bool := s.st != 0#8

/-- Where an instruction is placed to be fetched next: at `pc`, or at the entry point when no fetch is possible at `pc`. -/
def fetchPlace (s : State) : Word := if s.pc.toNat + 1 < Config.memSize then s.pc else 0x200#16

end Sys2Proof.Machine
end

