-- ==== Sys2Proof/Machine/Step.lean ====
section
/-! DEFINITION. One step of the machine, and an instruction placed where the next step fetches it. -/

namespace Sys2Proof.Machine

/-- One step: the next move of the whole machine (R238). -/
def step (s : State) : Host.Outcome State Fault Refusal := nextMove s

/-- The state with an instruction, numbered as the opcode table numbers it, stored where the next step fetches it. The fetch needs
an address with both bytes inside memory (R103), `run = RUNNING` (R101) and an iteration as the next move (R238); nothing else
changes. This stands for a ROM loaded from outside (log 21). -/
def State.withFetchWord (s : State) (nbits w : Nat) : State :=
  { s with
    mem := s.mem.writeBytes (fetchPlace s).toNat (bytesOfWord (tableWord nbits w))
    pc := fetchPlace s
    run := .running
    moves := match s.moves with
      | .host e :: rest => .iterate :: .host e :: rest
      | .iterate :: rest => .iterate :: rest
      | [] => [] }

end Sys2Proof.Machine
end

