-- ==== Sys2Proof/Safety.lean ====
section
/-! DEFINITION. The terms that claims are made in: what is kept from one state to the next (the frames), which fault a step
raises, the invariant of reachable states, the pixels a sprite covers, and calls matched by returns. -/

namespace Sys2Proof.Machine

/-! ### Frames (R109: a rule leaves unchanged what it does not write) -/

/-- Every general register is kept. -/
def RegsKept (s t : State) : Prop := ∀ r : RegIx, t.readV r = s.readV r

/-- Every general register but `V[x]` is kept. -/
def RegsKeptBut (x : RegIx) (s t : State) : Prop := ∀ r : RegIx, r ≠ x → t.readV r = s.readV r

/-- Every byte of memory reads as before, and the listed cells are the same. -/
def MemKept (s t : State) : Prop := (∀ a : Nat, t.mem.read? a = s.mem.read? a) ∧ t.mem = s.mem

/-- The return addresses and the cursor are kept. -/
def StackKept (s t : State) : Prop := t.stack = s.stack ∧ t.sp = s.sp

/-- Every pixel is kept. -/
def ScreenKept (s t : State) : Prop := ∀ (r : Fin 32) (c : Fin 64), pixel t.fb r c = pixel s.fb r c

/-- The timers, the keypad and the host's configuration are kept. -/
def DevicesKept (s t : State) : Prop := t.dt = s.dt ∧ t.st = s.st ∧ t.key = s.key ∧ t.conf = s.conf

/-- The model's own fields are kept: the schedule, and the count of tick draws. -/
def ScheduleKept (s t : State) : Prop := t.moves = s.moves ∧ t.draws = s.draws

/-- Everything is kept but the general registers. -/
def KeptButRegs (s t : State) : Prop :=
  MemKept s t ∧ t.i = s.i ∧ t.pc = s.pc ∧ StackKept s t ∧ ScreenKept s t ∧ DevicesKept s t ∧ t.run = s.run ∧ ScheduleKept s t

/-- Everything is kept but the index register. -/
def KeptButIndex (s t : State) : Prop :=
  MemKept s t ∧ RegsKept s t ∧ t.pc = s.pc ∧ StackKept s t ∧ ScreenKept s t ∧ DevicesKept s t ∧ t.run = s.run ∧
    ScheduleKept s t

/-- Everything is kept but the program counter. -/
def KeptButPc (s t : State) : Prop :=
  MemKept s t ∧ RegsKept s t ∧ t.i = s.i ∧ StackKept s t ∧ ScreenKept s t ∧ DevicesKept s t ∧ t.run = s.run ∧
    ScheduleKept s t

/-- Everything is kept but the program counter and the return addresses with their cursor. -/
def KeptButPcAndStack (s t : State) : Prop :=
  MemKept s t ∧ RegsKept s t ∧ t.i = s.i ∧ ScreenKept s t ∧ DevicesKept s t ∧ t.run = s.run ∧ ScheduleKept s t

/-- Everything is kept but the framebuffer. -/
def KeptButScreen (s t : State) : Prop :=
  MemKept s t ∧ RegsKept s t ∧ t.i = s.i ∧ t.pc = s.pc ∧ StackKept s t ∧ DevicesKept s t ∧ t.run = s.run ∧ ScheduleKept s t

/-- Everything is kept but the framebuffer and the flag register `V[15]`. -/
def KeptButScreenAndFlag (s t : State) : Prop :=
  MemKept s t ∧ RegsKeptBut 15 s t ∧ t.i = s.i ∧ t.pc = s.pc ∧ StackKept s t ∧ DevicesKept s t ∧ t.run = s.run ∧
    ScheduleKept s t

/-- Everything of R30's tuple is kept but the program counter and the run state. -/
def KeptButPcAndRun (s t : State) : Prop :=
  MemKept s t ∧ RegsKept s t ∧ t.i = s.i ∧ StackKept s t ∧ ScreenKept s t ∧ DevicesKept s t

/-- Everything of R30's tuple is kept but the keypad and the run state. -/
def KeptButKeypadAndRun (s t : State) : Prop :=
  MemKept s t ∧ RegsKept s t ∧ t.i = s.i ∧ t.pc = s.pc ∧ StackKept s t ∧ ScreenKept s t ∧ t.dt = s.dt ∧ t.st = s.st ∧
    t.conf = s.conf

/-! ### What a step is about to do -/

/-- The next move is the core's own: no host event stands first in the schedule. -/
def CoreMovesNext (s : State) : Prop := ∀ e rest, s.moves ≠ .host e :: rest

/-- The fault an instruction raises: RET on an empty stack (R120), CALL on a full one (R122), every other instruction none
(R202). -/
def instrFault? (i : Instr) (s : State) : Option FaultKind :=
  match i with
  | .ret _ => if s.sp.val = 0 then some .stackUnderflow else none
  | .call _ => if s.sp.val = Config.stackDepth then some .stackOverflow else none
  | .cls _ => none
  | .nop0nnn _ => none
  | .jp _ => none
  | .seImm _ _ => none
  | .sneImm _ _ => none
  | .seReg _ _ _ => none
  | .ldImm _ _ => none
  | .addImm _ _ => none
  | .nop8xyn _ _ _ => none
  | .sneReg _ _ _ => none
  | .ldI _ => none
  | .nopBnnn _ => none
  | .nopCxnn _ _ => none
  | .drw _ _ _ => none
  | .nopExnn _ _ => none
  | .nopFxnn _ _ => none

/-- Which of the three faults (R200) an iteration raises: the bound check first (R103), then the one instruction. -/
def faultRaised? (s : State) : Option FaultKind :=
  match fetchWord? s.mem s.pc.toNat with
  | none => some .pcOutOfBounds
  | some w => instrFault? (decode w) s

/-- `pc` after a fault, the table of R200, told from the state before the iteration, whose `pc` is the address `a`. -/
def pcAfterFault (k : FaultKind) (s : State) : Word :=
  match k with
  | .pcOutOfBounds => s.pc
  | .stackUnderflow => s.pc
  | .stackOverflow => if Config.callOverflowRollsBack then s.pc else s.pc + 2#16

/-! ### The invariant of reachable states -/

/-- What holds in every reachable state: memory's canonical form, the bounds on `pc` (R38), `I` (R41) and the stacked return
addresses (R38), timers at zero (R47), the font as constructed (R68). The bound on `sp` (R43) is in its type. -/
structure Inv (s : State) : Prop where
  memForm : s.mem.wf = true
  pcBound : s.pc.toNat ≤ 0x1002
  iBound : s.i.toNat ≤ 0x0FFF
  delayZero : s.dt = 0#8
  soundZero : s.st = 0#8
  returnBound : ∀ (k : Nat) (h : k < 12), k < s.sp.val → s.stack[k].toNat ≤ 0x1000
  fontIntact : ∀ k : Nat, k < 80 → s.mem.read? (Config.fontBase + k) = some (Config.font.getD k 0#8)

/-- The states that the machine can reach: from a construction (R241) with any configuration (R230), with any schedule of host events (R238). -/
inductive Reachable : State → Prop
  | constructed (conf : Config.HostConfig) (rom : List Byte) (s : State) (ms : List Move) :
      construct conf rom = .next s → Reachable (s.setMoves ms)
  | stepped (s t : State) : Reachable s → step s = .next t → Reachable t

/-! ### The pixels of a sprite -/

/-- A set bit of the sprite falls on the pixel in row `r` and column `c`: some sprite row inside memory (R155) and some column,
from the origin of R153, most significant bit first (R158). Rows at or beyond 32 and columns at or beyond 64 are no pixels
(R156, R157). -/
def SpriteCovers (s : State) (x y : RegIx) (n : Nibble) (r : Fin 32) (c : Fin 64) : Prop :=
  ∃ (row col : Nat) (b : Byte), row < n.toNat ∧ col < 8 ∧ (s.readV y).toNat % 32 + row = r.val ∧
    (s.readV x).toNat % 64 + col = c.val ∧ s.mem.read? (s.i.toNat + row) = some b ∧ b.getLsbD (7 - col) = true

/-! ### Calls matched by returns (R123) -/

/-- The step from `s` to `t` is a CALL that does not fault. -/
def RunsCall (s t : State) : Prop :=
  (∃ nnn, currentInstr? s = some (.call nnn)) ∧ s.sp.val ≠ 12 ∧ step s = .next t

/-- The step from `s` to `t` is a RET that does not fault. -/
def RunsRet (s t : State) : Prop :=
  (∃ x, currentInstr? s = some (.ret x)) ∧ s.sp.val ≠ 0 ∧ step s = .next t

/-- A run in which every CALL is matched by a RET. -/
inductive Matched : State → State → Prop
  | done (s : State) : Matched s s
  | other (s t u : State) : step s = .next t → (¬ ∃ t', RunsCall s t') → (¬ ∃ t', RunsRet s t') → Matched t u → Matched s u
  | nested (s t u v w : State) : RunsCall s t → Matched t u → RunsRet u v → Matched v w → Matched s w

/-- CALLs executed one after another, each with `pc = a + 2` as the one before it left `pc` advanced (R125). -/
def callAll : List Addr12 → State → Host.Outcome State Fault Refusal
  | [], s => .next s
  | nnn :: rest, s =>
    match exec (.call nnn) s.advance with
    | .next t => callAll rest t
    | .fault f => .fault f
    | .refused r => .refused r

end Sys2Proof.Machine
end

