-- ==== Sys2Proof/Certificates/Slice0/Obligations.lean ====
section
/-! DEFINITION. The statements about the machine, for the provers. Each docstring says which rules of spec/ it formalises, and what
of it is the spec's own choice or the model's. -/

open Sys2Proof Sys2Proof.Machine

/-- One word of each family, from the patterns of R88. That 0x03EE is a RET rests on the spec's own decision D5 (log 8), that 0x5127 is an SE on D6
(log 9), and that their unexamined nibbles are kept as operands is the model's choice (the same logs). -/
def Obligations.WrittenWordsDecode : Prop :=
  decode 0b0000000011100000#16 = .cls 0x0#4 ∧
  decode 0b0000001111101110#16 = .ret 0x3#4 ∧
  decode 0b0010001000000110#16 = .call 0x206#12 ∧
  decode 0b0101000100100111#16 = .seReg 1 2 0x7#4 ∧
  decode 0b0110000000000101#16 = .ldImm 0 0x05#8 ∧
  decode 0b1010001000001100#16 = .ldI 0x20C#12 ∧
  decode 0b1101000000010001#16 = .drw 0 1 0x1#4 ∧
  decode 0b1000000100100100#16 = .nop8xyn 1 2 0x4#4

/-- R88, R89 and R93: each row encodes to one word and decodes back. The unexamined nibbles are kept as operands: the model's choice, logs 8 and 9. -/
def Obligations.DecodeUndoesEncode : Prop :=
  ∀ i : Instr, i.wf = true → decode (encode i) = i

/-- R82 (any 16-bit input is valid) and R89 (total and unambiguous). The unexamined nibbles are kept as operands: the model's choice, logs 8 and 9. -/
def Obligations.EncodeUndoesDecode : Prop :=
  ∀ w : Word, (decode w).wf = true ∧ encode (decode w) = w

/-- R88: the rows partition the words, the only overlap being in class 0. R89 is the spec's own inference from it. -/
def Obligations.WordsSelectOneRow : Prop :=
  ∀ w : Word, ∃ row : OpcodeRow, row.mnemonic = (decode w).mnemonic ∧
    (rowsSelected w = [row] ∨
      ((row.mnemonic = "CLS" ∨ row.mnemonic = "RET") ∧ ∃ nop : OpcodeRow, nop.mnemonic = "NOP_0NNN" ∧ rowsSelected w = [row, nop]))

/-- R81, each slice told by division of the word as a number. -/
def Obligations.FieldsAreTheSlices : Prop :=
  ∀ w : Word,
    w.opClass.toNat = w.toNat / 4096 ∧ w.x.val = w.toNat / 256 % 16 ∧ w.y.val = w.toNat / 16 % 16 ∧ w.n.toNat = w.toNat % 16 ∧
    w.nn.toNat = w.toNat % 256 ∧ w.nnn.toNat = w.toNat % 4096 ∧
    w.nn.toNat = w.y.val * 16 + w.n.toNat ∧ w.nnn.toNat = w.x.val * 256 + w.y.val * 16 + w.n.toNat

/-- R86, which rests on the spec's own decisions D5 and D7 (logs 8 and 10). -/
def Obligations.Class0DispatchesOnLowByte : Prop :=
  ∀ w : Word, w.opClass = 0x0#4 →
    (w.nn = 0xE0#8 → decode w = .cls w.xBits) ∧ (w.nn = 0xEE#8 → decode w = .ret w.xBits) ∧
    (w.nn ≠ 0xE0#8 → w.nn ≠ 0xEE#8 → decode w = .nop0nnn w.nnn) ∧
    ∀ (w' : Word) (s : State), w'.opClass = 0x0#4 → w'.nn = w.nn → exec (decode w') s = exec (decode w) s

/-- R87, which rests on the spec's own decision D6 (log 9). -/
def Obligations.LowNibbleOfClasses5And9Ignored : Prop :=
  ∀ (w w' : Word) (s : State), (w.opClass = 0x5#4 ∨ w.opClass = 0x9#4) → w'.opClass = w.opClass → w'.x = w.x → w'.y = w.y →
    exec (decode w') s = exec (decode w) s

/-- R242. -/
def Obligations.ConstructionSucceedsExactly : Prop :=
  ∀ (conf : Config.HostConfig) (rom : List Byte),
    ((∃ s, construct conf rom = .next s) ↔ (1 ≤ rom.length ∧ rom.length ≤ 3584)) ∧
    (¬ (1 ≤ rom.length ∧ rom.length ≤ 3584) → construct conf rom = .refused (.romLength rom.length))

/-- R243, the spec's inference from R241. FONT is named and not given a value (log 1). -/
def Obligations.ConstructedMemoryLayout : Prop :=
  ∀ (conf : Config.HostConfig) (rom : List Byte) (s : State), construct conf rom = .next s →
    (∀ k, k < rom.length → s.mem.read? (0x200 + k) = rom[k]?) ∧
    (∀ k, k < 80 → s.mem.read? (0x050 + k) = some (Config.font.getD k 0#8)) ∧
    (∀ a, a < 4096 → ¬ (0x050 ≤ a ∧ a < 0x0A0) → ¬ (0x200 ≤ a ∧ a < 0x200 + rom.length) → s.mem.read? a = some 0#8) ∧
    s.mem.wf = true

/-- R34, and the lines of R241 that are not the spec's own decisions. -/
def Obligations.ConstructedRegisters : Prop :=
  ∀ (conf : Config.HostConfig) (rom : List Byte) (s : State), construct conf rom = .next s →
    (∀ r : RegIx, s.readV r = 0#8) ∧ s.i = 0#16 ∧ s.pc = 0x200#16 ∧ s.sp.val = 0 ∧ s.dt = 0#8 ∧ s.st = 0#8 ∧ s.run = .running

/-- D10 and D11, decisions of the spec (logs 5, 6, 7). -/
def Obligations.ConstructedScreenKeypadStack : Prop :=
  ∀ (conf : Config.HostConfig) (rom : List Byte) (s : State), construct conf rom = .next s →
    (∀ r c, pixel s.fb r c = false) ∧ (∀ k : Fin 16, s.key[k.val] = false) ∧ (∀ k : Fin 12, s.stack[k.val] = 0#16)

/-- The model's choice of the state after reset, log 21: it is one of the states of R241. -/
def Obligations.ResetIsOneZeroByteRom : Prop :=
  construct Config.hostDefault [0#8] = .next State.reset

/-- R60. -/
def Obligations.FetchIsBigEndian : Prop :=
  ∀ (m : Memory) (a : Nat) (w : Word),
    fetchWord? m a = some w ↔
      ∃ hi lo : Byte, m.read? a = some hi ∧ m.read? (a + 1) = some lo ∧ w.toNat = hi.toNat * 256 + lo.toNat

/-- R103. -/
def Obligations.BoundCheckFaults : Prop :=
  ∀ s : State, CoreMovesNext s → s.run = .running →
    (0x0FFE < s.pc.toNat → ∃ t, step s = .next t ∧ t.run = .paused ∧ t.pc = s.pc ∧ KeptButPcAndRun s t) ∧
    (s.pc.toNat ≤ 0x0FFE → ∃ w, fetchWord? s.mem s.pc.toNat = some w ∧ currentInstr? s = some (decode w))

/-- R100, R104, R105; the tick is a free draw, D9 (log 4). R205 and R238: the schedule in State is the model's own form of the interleaving of D17
(log 15). -/
def Obligations.StepRunsDecodedInstruction : Prop :=
  (∀ (s : State) (hi lo : Byte) (i : Instr), CoreMovesNext s → s.run = .running →
    s.mem.read? s.pc.toNat = some hi → s.mem.read? (s.pc.toNat + 1) = some lo → decodeBytes [hi, lo] = .ok (i, []) →
    ∃ t, exec i { s with pc := s.pc + 2#16, moves := s.moves.tail, draws := s.draws + 1 } = .next t ∧
      step s = .next (endIteration (Config.tickDraw s.draws) t)) ∧
  ∀ (s : State) (e : HostEvent) (rest : List Move), s.moves = .host e :: rest → s.run ≠ .quit →
    step s = hostEvent e (s.setMoves rest)

/-- R90 (no word is illegal and no word traps) and R231 (no instruction halts the core). -/
def Obligations.EveryStepGoesOnUnlessQuit : Prop :=
  ∀ s : State, (∀ i : Instr, ∃ t, exec i s = .next t) ∧ (s.run ≠ .quit → ∃ t, step s = .next t)

/-- R211. The stop is the model's form for the loop that has exited (log 18). -/
def Obligations.QuitIsTerminal : Prop :=
  ∀ s : State, (step s = .fault .machineQuit ↔ s.run = .quit) ∧ (s.run = .quit → ∀ e, hostEvent e s = .fault .machineQuit)

/-- R214; the parameter of R215 is named and not given a value (log 3). -/
def Obligations.TickDecrementsTimers : Prop :=
  ∀ s : State, s.run = .running →
    (endIteration true s).dt.toNat = (if Config.timersWired then s.dt.toNat - 1 else s.dt.toNat) ∧
    (endIteration true s).st.toNat = (if Config.timersWired then s.st.toNat - 1 else s.st.toNat) ∧
    { endIteration true s with dt := s.dt, st := s.st } = s ∧ endIteration false s = s

/-- R140. -/
def Obligations.LdImmLoadsImmediate : Prop :=
  (∀ w : Word, w &&& 0xF000#16 = 0x6000#16 → decode w = .ldImm w.x w.nn) ∧
  ∀ (x : RegIx) (nn : Byte) (s : State), ∃ t, exec (.ldImm x nn) s = .next t ∧
    t.readV x = nn ∧ RegsKeptBut x s t ∧ KeptButRegs s t

/-- R141. -/
def Obligations.AddImmWrapsWithoutFlag : Prop :=
  (∀ w : Word, w &&& 0xF000#16 = 0x7000#16 → decode w = .addImm w.x w.nn) ∧
  ∀ (x : RegIx) (nn : Byte) (s : State), ∃ t, exec (.addImm x nn) s = .next t ∧
    (t.readV x).toNat = ((s.readV x).toNat + nn.toNat) % 256 ∧ RegsKeptBut x s t ∧ KeptButRegs s t

/-- R142. -/
def Obligations.LdIndexLoadsAddress : Prop :=
  (∀ w : Word, w &&& 0xF000#16 = 0xA000#16 → decode w = .ldI w.nnn) ∧
  ∀ (nnn : Addr12) (s : State), ∃ t, exec (.ldI nnn) s = .next t ∧ t.i.toNat = nnn.toNat ∧ KeptButIndex s t

/-- R121. -/
def Obligations.JpJumps : Prop :=
  (∀ w : Word, w &&& 0xF000#16 = 0x1000#16 → decode w = .jp w.nnn) ∧
  ∀ (nnn : Addr12) (s : State), ∃ t, exec (.jp nnn) s = .next t ∧ t.pc.toNat = nnn.toNat ∧ KeptButPc s t

/-- R120 (C2); that the second nibble is not examined is the spec's own decision D5 (log 8). -/
def Obligations.RetPopsOrUnderflows : Prop :=
  (∀ w : Word, w &&& 0xF0FF#16 = 0x00EE#16 → decode w = .ret w.xBits) ∧
  ∀ (x : Nibble) (s : State),
    (s.sp.val ≠ 0 → ∃ t, exec (.ret x) s = .next t ∧ t.sp.val + 1 = s.sp.val ∧ s.stack[t.sp.val]? = some t.pc ∧
      t.stack = s.stack ∧ KeptButPcAndStack s t) ∧
    (s.sp.val = 0 → ∃ t, exec (.ret x) s = .next t ∧ t.run = .paused ∧ t.pc + 2#16 = s.pc ∧ KeptButPcAndRun s t ∧
      ScheduleKept s t)

/-- R122, the part that does not rest on the spec's decision D2. -/
def Obligations.CallPushesAndJumps : Prop :=
  (∀ w : Word, w &&& 0xF000#16 = 0x2000#16 → decode w = .call w.nnn) ∧
  ∀ (nnn : Addr12) (s : State), s.sp.val ≠ 12 → ∃ t, exec (.call nnn) s = .next t ∧
    t.stack[s.sp.val]? = some s.pc ∧ (∀ k, k ≠ s.sp.val → t.stack[k]? = s.stack[k]?) ∧ t.sp.val = s.sp.val + 1 ∧
    t.pc.toNat = nnn.toNat ∧ KeptButPcAndStack s t

/-- R122 and the spec's own decision D2 (log 2); the parameter is named and not given a value. -/
def Obligations.CallOverflowPauses : Prop :=
  ∀ (nnn : Addr12) (s : State), s.sp.val = 12 → ∃ t, exec (.call nnn) s = .next t ∧ t.run = .paused ∧
    (if Config.callOverflowRollsBack then t.pc + 2#16 = s.pc else t.pc = s.pc) ∧
    KeptButPcAndRun s t ∧ ScheduleKept s t

/-- R126. -/
def Obligations.SeImmSkipsWhenEqual : Prop :=
  (∀ w : Word, w &&& 0xF000#16 = 0x3000#16 → decode w = .seImm w.x w.nn) ∧
  ∀ (x : RegIx) (nn : Byte) (s : State), ∃ t, exec (.seImm x nn) s = .next t ∧
    (s.readV x = nn → t.pc = s.pc + 2#16) ∧ (s.readV x ≠ nn → t.pc = s.pc) ∧ KeptButPc s t

/-- R127. -/
def Obligations.SneImmSkipsWhenDifferent : Prop :=
  (∀ w : Word, w &&& 0xF000#16 = 0x4000#16 → decode w = .sneImm w.x w.nn) ∧
  ∀ (x : RegIx) (nn : Byte) (s : State), ∃ t, exec (.sneImm x nn) s = .next t ∧
    (s.readV x ≠ nn → t.pc = s.pc + 2#16) ∧ (s.readV x = nn → t.pc = s.pc) ∧ KeptButPc s t

/-- R128 and R129; that n is ignored is the spec's own decision D6 (log 9). -/
def Obligations.RegisterSkipsCompareTwoRegisters : Prop :=
  (∀ w : Word, w &&& 0xF000#16 = 0x5000#16 → decode w = .seReg w.x w.y w.n) ∧
  (∀ w : Word, w &&& 0xF000#16 = 0x9000#16 → decode w = .sneReg w.x w.y w.n) ∧
  ∀ (x y : RegIx) (n : Nibble) (s : State),
    (∃ t, exec (.seReg x y n) s = .next t ∧ (s.readV x = s.readV y → t.pc = s.pc + 2#16) ∧
      (s.readV x ≠ s.readV y → t.pc = s.pc) ∧ (x = y → t.pc = s.pc + 2#16) ∧ KeptButPc s t) ∧
    (∃ t, exec (.sneReg x y n) s = .next t ∧ (s.readV x ≠ s.readV y → t.pc = s.pc + 2#16) ∧
      (s.readV x = s.readV y → t.pc = s.pc) ∧ (x = y → t.pc = s.pc) ∧ KeptButPc s t)

/-- R124. -/
def Obligations.SkipsAdvanceByFourOrTwo : Prop :=
  ∀ (s : State) (w : Word) (tick : Bool), s.run = .running → fetchWord? s.mem s.pc.toNat = some w →
    ∃ t, iteration tick s = .next t ∧
      (w.opClass = 0x3#4 → t.pc.toNat = s.pc.toNat + (if s.readV w.x = w.nn then 4 else 2)) ∧
      (w.opClass = 0x4#4 → t.pc.toNat = s.pc.toNat + (if s.readV w.x ≠ w.nn then 4 else 2)) ∧
      (w.opClass = 0x5#4 → t.pc.toNat = s.pc.toNat + (if s.readV w.x = s.readV w.y then 4 else 2)) ∧
      (w.opClass = 0x9#4 → t.pc.toNat = s.pc.toNat + (if s.readV w.x ≠ s.readV w.y then 4 else 2))

/-- R125, the spec's inference from R120, R122 and R43. -/
def Obligations.NestingDepthIsTwelve : Prop :=
  ∀ (targets : List Addr12) (s : State), s.run = .running → s.sp.val + targets.length ≤ 12 →
    ∃ t, callAll targets s = .next t ∧ t.run = .running ∧ t.sp.val = s.sp.val + targets.length ∧
      (t.sp.val = 12 → ∀ nnn, ∃ u, callAll (targets ++ [nnn]) s = .next u ∧ u.run = .paused ∧ u.sp.val = 12)

/-- R123, the spec's inference from R120 and R122. -/
def Obligations.MatchedCallReturnsAfterIt : Prop :=
  ∀ s t u v : State, RunsCall s t → Matched t u → RunsRet u v → v.pc = s.pc + 2#16

/-- R150; that the second nibble is not examined is the spec's own decision D5 (log 8). -/
def Obligations.ClsClearsScreen : Prop :=
  (∀ w : Word, w &&& 0xF0FF#16 = 0x00E0#16 → decode w = .cls w.xBits) ∧
  ∀ (x : Nibble) (s : State), ∃ t, exec (.cls x) s = .next t ∧ (∀ r c, pixel t.fb r c = false) ∧ KeptButScreen s t

/-- R152 to R159: the loop of R152 equals a closed form. That the origin is read before the clear (D4, log 11) and the reading of the memory bound (D3, log 12) are the spec's own choices. -/
def Obligations.DrwXorsSprite : Prop :=
  (∀ w : Word, w &&& 0xF000#16 = 0xD000#16 → decode w = .drw w.x w.y w.n) ∧
  ∀ (x y : RegIx) (n : Nibble) (s : State), ∃ t, exec (.drw x y n) s = .next t ∧
    (∀ r c, SpriteCovers s x y n r c → pixel t.fb r c = !pixel s.fb r c) ∧
    (∀ r c, ¬ SpriteCovers s x y n r c → pixel t.fb r c = pixel s.fb r c) ∧
    ((∃ r c, SpriteCovers s x y n r c ∧ pixel s.fb r c = true) → t.readV 15 = 1#8) ∧
    ((¬ ∃ r c, SpriteCovers s x y n r c ∧ pixel s.fb r c = true) → t.readV 15 = 0#8) ∧
    KeptButScreenAndFlag s t

/-- R157 and R158, of the eight columns of one row. The flag here is the Boolean that the model gathers and writes to V[15] once, at the end of
DRW: DEDUCED, log 22. That the next row still runs (R157) is said by DrwXorsSprite, not here. -/
def Obligations.SpriteRowXorsAndClips : Prop :=
  ∀ (b : Byte) (ox : Nat) (row : Fin 32) (fb : Framebuffer) (hit : Bool),
    (∀ c, (∃ col, col < 8 ∧ ox + col = c.val ∧ b.getLsbD (7 - col) = true) →
      pixel (drawCols b ox row 8 0 (fb, hit)).1 row c = !pixel fb row c) ∧
    (∀ r c, ¬ (r = row ∧ ∃ col, col < 8 ∧ ox + col = c.val ∧ b.getLsbD (7 - col) = true) →
      pixel (drawCols b ox row 8 0 (fb, hit)).1 r c = pixel fb r c) ∧
    ((drawCols b ox row 8 0 (fb, hit)).2 = true ↔
      hit = true ∨ ∃ (col : Nat) (c : Fin 64), col < 8 ∧ ox + col = c.val ∧ b.getLsbD (7 - col) = true ∧ pixel fb row c = true)

/-- R156. -/
def Obligations.RowsBelowScreenAreNotRead : Prop :=
  ∀ (x y : RegIx) (n : Nibble) (s : State) (m : Memory),
    (∀ row, row < n.toNat → (s.readV y).toNat % 32 + row < 32 → m.read? (s.i.toNat + row) = s.mem.read? (s.i.toNat + row)) →
    ∃ t u, exec (.drw x y n) s = .next t ∧ exec (.drw x y n) (s.setMem m) = .next u ∧ u.fb = t.fb ∧ u.v = t.v ∧
      ∀ r c, r.val < (s.readV y).toNat % 32 → pixel t.fb r c = pixel s.fb r c

/-- R160, the spec's inference from R152. -/
def Obligations.DrwZeroHeightOnlyClearsFlag : Prop :=
  ∀ (x y : RegIx) (s : State), ∃ t, exec (.drw x y 0#4) s = .next t ∧ t.readV 15 = 0#8 ∧ RegsKeptBut 15 s t ∧
    KeptButRegs s t ∧ ∀ m, exec (.drw x y 0#4) (s.setMem m) = .next (t.setMem m)

/-- R161 (C6), the spec's inference from R153 to R158. -/
def Obligations.DrawTwiceRestores : Prop :=
  ∀ (x y : RegIx) (n : Nibble) (s : State) (a : Word), x ≠ 15 → y ≠ 15 →
    ∃ t u, exec (.drw x y n) s = .next t ∧ exec (.drw x y n) (t.setPc a) = .next u ∧
      (∀ r c, pixel u.fb r c = pixel s.fb r c) ∧
      ((∃ r c, pixel s.fb r c = false ∧ pixel t.fb r c = true) → u.readV 15 = 1#8) ∧
      ((¬ ∃ r c, pixel s.fb r c = false ∧ pixel t.fb r c = true) → u.readV 15 = 0#8)

/-- R151, the spec's inference from R150 and R152. -/
def Obligations.DrawAfterClsShowsSprite : Prop :=
  ∀ (z : Nibble) (x y : RegIx) (n : Nibble) (s : State) (a : Word),
    ∃ t u, exec (.cls z) s = .next t ∧ exec (.drw x y n) (t.setPc a) = .next u ∧ u.readV 15 = 0#8 ∧
      ∀ r c, pixel u.fb r c = true ↔ SpriteCovers s x y n r c

/-- R162, the spec's inference from R156 and R157. -/
def Obligations.DrawAtCornerClips : Prop :=
  ∀ (x y : RegIx) (s : State), (s.readV x).toNat % 64 = 60 → (s.readV y).toNat % 32 = 30 →
    (∀ row, row < 5 → s.mem.read? (s.i.toNat + row) = some 0xFF#8) → (∀ r c, pixel s.fb r c = false) →
    ∃ t, exec (.drw x y 5#4) s = .next t ∧ t.readV 15 = 0#8 ∧ ∀ r c, pixel t.fb r c = true ↔ (30 ≤ r.val ∧ 60 ≤ c.val)

/-- R171 to R175. -/
def Obligations.UnimplementedClassesDoNothing : Prop :=
  (∀ (w : Word) (s : State),
    (w.opClass = 0x8#4 ∨ w.opClass = 0xB#4 ∨ w.opClass = 0xC#4 ∨ w.opClass = 0xE#4 ∨ w.opClass = 0xF#4) →
    exec (decode w) s.advance = .next { s with pc := s.pc + 2#16 }) ∧
  ∀ (x y : RegIx) (n : Nibble) (nn : Byte) (nnn : Addr12) (s : State),
    exec (.nop8xyn x y n) s = .next s ∧ exec (.nopBnnn nnn) s = .next s ∧ exec (.nopCxnn x nn) s = .next s ∧
    exec (.nopExnn x nn) s = .next s ∧ exec (.nopFxnn x nn) s = .next s

/-- R170, which rests on the spec's own decision D7 (log 10). -/
def Obligations.OtherClass0WordsDoNothing : Prop :=
  (∀ (w : Word) (s : State), w.opClass = 0x0#4 → w.nn ≠ 0xE0#8 → w.nn ≠ 0xEE#8 →
    exec (decode w) s.advance = .next { s with pc := s.pc + 2#16 }) ∧
  ∀ (nnn : Addr12) (s : State), exec (.nop0nnn nnn) s = .next s

/-- R201. Which pc follows StackOverflow is the spec's own decision D2 (log 2), named as a parameter and not given a value. -/
def Obligations.FaultOnlyPauses : Prop :=
  ∀ (s : State) (k : FaultKind), CoreMovesNext s → s.run = .running → faultRaised? s = some k →
    ∃ t, step s = .next t ∧ t.run = .paused ∧ t.pc = pcAfterFault k s ∧ KeptButPcAndRun s t

/-- R200 and R202, the latter the spec's inference. -/
def Obligations.StepFaultsExactlyWhen : Prop :=
  ∀ s : State, CoreMovesNext s → s.run = .running →
    ∃ t, step s = .next t ∧ t.run = (if (faultRaised? s).isSome then .paused else .running) ∧
      ((faultRaised? s).isSome = true ↔ 0x0FFE < s.pc.toNat ∨
        (∃ x, currentInstr? s = some (.ret x) ∧ s.sp.val = 0) ∨ (∃ nnn, currentInstr? s = some (.call nnn) ∧ s.sp.val = 12))

/-- R108 and R237, inferences of the spec; StackOverflow under the parameter of D2 (log 2). -/
def Obligations.ResumedFaultRecurs : Prop :=
  ∀ (s : State) (k : FaultKind) (rest : List Move), s.moves = .iterate :: .host .resume :: .iterate :: rest → s.run = .running →
    faultRaised? s = some k → (k = .stackOverflow → Config.callOverflowRollsBack = true) →
    ∃ p u t,
      (step s = .next p ∧ p.run = .paused ∧ p.pc = s.pc ∧ KeptButPcAndRun s p) ∧
      (step p = .next u ∧ u.run = .running ∧ u.pc = s.pc ∧ KeptButPcAndRun s u ∧ CoreMovesNext u ∧ faultRaised? u = some k) ∧
      (step u = .next t ∧ t.run = .paused ∧ t.pc = s.pc ∧ KeptButPcAndRun s t ∧ t.moves = rest)

/-- R206. -/
def Obligations.KeyEventSetsOneKey : Prop :=
  ∀ (k : Fin 16) (pressed : Bool) (s : State), s.run ≠ .quit → ∃ t, hostEvent (.key k pressed) s = .next t ∧
    t.key[k.val] = pressed ∧ (∀ j : Fin 16, j ≠ k → t.key[j.val] = s.key[j.val]) ∧ t.run = s.run ∧ KeptButKeypadAndRun s t ∧
    ScheduleKept s t

/-- R209. -/
def Obligations.QuitIntentQuits : Prop :=
  ∀ s : State, (s.run = .running ∨ s.run = .paused) → ∃ t, hostEvent .quit s = .next t ∧ t.run = .quit ∧ t.key = s.key ∧
    KeptButKeypadAndRun s t ∧ ScheduleKept s t

/-- R207 and R208; that a repeated intent has no effect is the spec's own decision D16 (log 14). -/
def Obligations.PauseAndResumeIntents : Prop :=
  ∀ s : State, s.run ≠ .quit →
    (∃ t, hostEvent .pause s = .next t ∧ t.run = .paused ∧ t.key = s.key ∧ KeptButKeypadAndRun s t ∧ ScheduleKept s t) ∧
    (∃ t, hostEvent .resume s = .next t ∧ t.run = .running ∧ t.key = s.key ∧ KeptButKeypadAndRun s t ∧ ScheduleKept s t)

/-- R212, the spec's inference. -/
def Obligations.RunStateTransitions : Prop :=
  ∀ s t : State, step s = .next t → t.run ≠ s.run →
    (s.run = .running ∧ t.run = .paused ∧
      ((CoreMovesNext s ∧ (faultRaised? s).isSome = true) ∨ ∃ rest, s.moves = .host .pause :: rest)) ∨
    (s.run = .paused ∧ t.run = .running ∧ ∃ rest, s.moves = .host .resume :: rest) ∨
    (s.run ≠ .quit ∧ t.run = .quit ∧ ∃ rest, s.moves = .host .quit :: rest)

/-- R210 and R231; the sleep and the tick reference are host time (R54). -/
def Obligations.PausedIsQuiescent : Prop :=
  ∀ s : State, s.run = .paused → CoreMovesNext s →
    step s = .next { s with moves := s.moves.tail } ∧ loopPresents s = some (frame s) ∧ (frame s).grid = s.fb

/-- R213 and R220; that a faulting iteration takes no tick is the spec's own decision D9 (log 4). -/
def Obligations.TicksPresentFrames : Prop :=
  ∀ s : State, s.run = .running → ∃ t, loopPass s = .next t ∧
    loopPresents s = (if Config.tickDraw s.draws = true ∧ faultRaised? s = none then some (frame t) else none) ∧
    (frame t).grid = t.fb

/-- R66 and R73, inferences of the spec. -/
def Obligations.NoStepWritesMemory : Prop :=
  ∀ s t : State, step s = .next t → MemKept s t

/-- R33, the spec's inference, and R39. -/
def Obligations.RegisterWriters : Prop :=
  ∀ (s t : State) (r : RegIx), step s = .next t → t.readV r ≠ s.readV r →
    ∃ i, currentInstr? s = some i ∧ ((∃ nn, i = .ldImm r nn ∨ i = .addImm r nn) ∨ (r = 15 ∧ ∃ x y n, i = .drw x y n))

/-- R40, R42, R43. -/
def Obligations.IndexAndStackWriters : Prop :=
  ∀ s t : State, step s = .next t →
    (t.i ≠ s.i → ∃ nnn : Addr12, currentInstr? s = some (.ldI nnn) ∧ t.i.toNat = nnn.toNat) ∧
    (t.sp ≠ s.sp → (∃ nnn, currentInstr? s = some (.call nnn) ∧ t.sp.val = s.sp.val + 1) ∨
      (∃ x, currentInstr? s = some (.ret x) ∧ t.sp.val + 1 = s.sp.val)) ∧
    (t.stack ≠ s.stack → ∃ nnn, currentInstr? s = some (.call nnn))

/-- R46, R49 (C4) and R51. -/
def Obligations.ScreenTimerKeypadWriters : Prop :=
  ∀ s t : State, step s = .next t →
    (¬ ScreenKept s t → ∃ i, currentInstr? s = some i ∧ ((∃ x, i = .cls x) ∨ ∃ x y n, i = .drw x y n)) ∧
    ((t.dt = s.dt ∧ t.st = s.st) ∨ (CoreMovesNext s ∧ s.run = .running ∧ Config.tickDraw s.draws = true)) ∧
    (t.key ≠ s.key → ∃ k pressed rest, s.moves = .host (.key k pressed) :: rest)

/-- R222 and R174. -/
def Obligations.KeypadIsNeverRead : Prop :=
  ∀ (s t : State) (key : Vector Bool 16), CoreMovesNext s → step s = .next t →
    step { s with key := key } = .next { t with key := key }

/-- R38, R41, R47 and R68 at construction; the canonical form is the model's own (log 20). -/
def Obligations.InvariantAtConstruction : Prop :=
  Inv State.reset ∧ ∀ (conf : Config.HostConfig) (rom : List Byte) (s : State), construct conf rom = .next s → Inv s

/-- R38, R41, R47 (inferences of the spec) and R68. -/
def Obligations.StepKeepsInvariant : Prop :=
  ∀ s t : State, Inv s → step s = .next t → Inv t

/-- R38, R41, R47, R221 (inferences of the spec) and R68. -/
def Obligations.ReachableStatesAreBounded : Prop :=
  ∀ s : State, Reachable s →
    s.pc.toNat ≤ 0x1002 ∧ (s.pc + 2#16).toNat = s.pc.toNat + 2 ∧ s.i.toNat ≤ 0x0FFF ∧ s.dt = 0#8 ∧ s.st = 0#8 ∧
    audioFlag s = false ∧ ∀ k, k < 80 → s.mem.read? (0x050 + k) = some (Config.font.getD k 0#8)

/-- The model's own helper, log 21, with R104 and R238. -/
def Obligations.PlacedInstructionRunsNext : Prop :=
  ∀ (s : State) (i : Instr), s.mem.wf = true → i.wf = true →
    currentInstr? (s.withFetchWord 16 (encode i).toNat) = some i

/-- The configuration row of R230, R220 and R18 (passed through unchanged); that it stands in State is the model's form (log 27). -/
def Obligations.ConfigurationIsSetOnce : Prop :=
  (∀ (conf : Config.HostConfig) (rom : List Byte) (s : State), construct conf rom = .next s → s.conf = conf) ∧
  (∀ s t : State, step s = .next t → t.conf = s.conf) ∧
  (∀ (e : HostEvent) (s t : State), hostEvent e s = .next t → t.conf = s.conf) ∧
  ∀ s : State, frame s = ⟨s.conf.foreground, s.conf.background, s.conf.scale, s.fb⟩
end

