-- ==== Sys2Proof/Laws/Fields.lean ====
section
/-! SUPPORT. The fields of the words the encoder makes, and the number each word is. -/

namespace Sys2Proof

/-- A word of class, `x` and `nn` as a number. -/
theorem wordXNN_toNat (c : Nibble) (x : RegIx) (nn : Byte) :
    (wordXNN c x nn).toNat = c.toNat * 4096 + x.val * 256 + nn.toNat := by
  have hc := c.isLt; have hx := x.isLt; have hn := nn.isLt
  simp only [wordXNN, BitVec.toNat_append, BitVec.toNat_ofFin]
  rw [← Nat.shiftLeft_add_eq_or_of_lt hn, ← Nat.shiftLeft_add_eq_or_of_lt hx, Nat.shiftLeft_eq, Nat.shiftLeft_eq]
  omega

/-- A word of class and `nnn` as a number. -/
theorem wordNNN_toNat (c : Nibble) (nnn : Addr12) : (wordNNN c nnn).toNat = c.toNat * 4096 + nnn.toNat := by
  have hn := nnn.isLt
  simp only [wordNNN, BitVec.toNat_append]
  rw [← Nat.shiftLeft_add_eq_or_of_lt hn, Nat.shiftLeft_eq]

/-- A word of class, `x`, `y` and `n` as a number. -/
theorem wordXYN_toNat (c : Nibble) (x y : RegIx) (n : Nibble) :
    (wordXYN c x y n).toNat = c.toNat * 4096 + x.val * 256 + y.val * 16 + n.toNat := by
  have hx := x.isLt; have hy := y.isLt; have hn := n.isLt
  simp only [wordXYN, BitVec.toNat_append, BitVec.toNat_ofFin]
  rw [← Nat.shiftLeft_add_eq_or_of_lt hn, ← Nat.shiftLeft_add_eq_or_of_lt hy, ← Nat.shiftLeft_add_eq_or_of_lt hx,
    Nat.shiftLeft_eq, Nat.shiftLeft_eq, Nat.shiftLeft_eq]
  omega

/-- A slice of a word as a number. -/
theorem slice_toNat (w : Word) (lo len : Nat) : (w.extractLsb' lo len).toNat = w.toNat / 2 ^ lo % 2 ^ len := by
  rw [BitVec.extractLsb'_toNat, Nat.shiftRight_eq_div_pow]

section Slices
variable (c : Nibble) (x y : RegIx) (n : Nibble) (nn : Byte) (nnn : Addr12)

@[simp] theorem wordXNN_opClass : (wordXNN c x nn).opClass = c := by
  apply BitVec.eq_of_toNat_eq
  have := c.isLt; have := x.isLt; have := nn.isLt
  rw [Word.opClass, slice_toNat, wordXNN_toNat]; omega

@[simp] theorem wordXNN_xBits : (wordXNN c x nn).xBits = BitVec.ofFin (w := 4) x := by
  apply BitVec.eq_of_toNat_eq
  have := c.isLt; have := x.isLt; have := nn.isLt
  show ((wordXNN c x nn).extractLsb' 8 4).toNat = x.val
  rw [slice_toNat, wordXNN_toNat]; omega

@[simp] theorem wordXNN_x : (wordXNN c x nn).x = x := by
  rw [Word.x, wordXNN_xBits]

@[simp] theorem wordXNN_nn : (wordXNN c x nn).nn = nn := by
  apply BitVec.eq_of_toNat_eq
  have := c.isLt; have := x.isLt; have := nn.isLt
  rw [Word.nn, slice_toNat, wordXNN_toNat]; omega

@[simp] theorem wordNNN_opClass : (wordNNN c nnn).opClass = c := by
  apply BitVec.eq_of_toNat_eq
  have := c.isLt; have := nnn.isLt
  rw [Word.opClass, slice_toNat, wordNNN_toNat]; omega

@[simp] theorem wordNNN_nnn : (wordNNN c nnn).nnn = nnn := by
  apply BitVec.eq_of_toNat_eq
  have := c.isLt; have := nnn.isLt
  rw [Word.nnn, slice_toNat, wordNNN_toNat]; omega

@[simp] theorem wordNNN_nn : (wordNNN c nnn).nn = nnn.lowByte := by
  apply BitVec.eq_of_toNat_eq
  have := c.isLt; have := nnn.isLt
  rw [Word.nn, slice_toNat, wordNNN_toNat, BitVec.toNat_setWidth]; omega

@[simp] theorem wordXYN_opClass : (wordXYN c x y n).opClass = c := by
  apply BitVec.eq_of_toNat_eq
  have := c.isLt; have := x.isLt; have := y.isLt; have := n.isLt
  rw [Word.opClass, slice_toNat, wordXYN_toNat]; omega

@[simp] theorem wordXYN_x : (wordXYN c x y n).x = x := by
  apply Fin.ext
  have := c.isLt; have := x.isLt; have := y.isLt; have := n.isLt
  show ((wordXYN c x y n).extractLsb' 8 4).toNat = x.val
  rw [slice_toNat, wordXYN_toNat]; omega

@[simp] theorem wordXYN_y : (wordXYN c x y n).y = y := by
  apply Fin.ext
  have := c.isLt; have := x.isLt; have := y.isLt; have := n.isLt
  show ((wordXYN c x y n).extractLsb' 4 4).toNat = y.val
  rw [slice_toNat, wordXYN_toNat]; omega

@[simp] theorem wordXYN_n : (wordXYN c x y n).n = n := by
  apply BitVec.eq_of_toNat_eq
  have := c.isLt; have := x.isLt; have := y.isLt; have := n.isLt
  rw [Word.n, slice_toNat, wordXYN_toNat]; omega

end Slices

end Sys2Proof
end

