-- ==== Sys2Proof/Laws/Decoding.lean ====
section
/-! SUPPORT. Decoding by class: the sixteen classes, what each decodes to, and the masks of the opcode map told as class and low
byte. -/

namespace Sys2Proof

/-- A property of every class is a property of the sixteen (R85). -/
theorem opClass_cases (w : Word) :
    (w.opClass = 0x0#4 ∨ w.opClass = 0x1#4 ∨ w.opClass = 0x2#4 ∨ w.opClass = 0x3#4) ∨
    (w.opClass = 0x4#4 ∨ w.opClass = 0x5#4 ∨ w.opClass = 0x6#4 ∨ w.opClass = 0x7#4) ∨
    (w.opClass = 0x8#4 ∨ w.opClass = 0x9#4 ∨ w.opClass = 0xA#4 ∨ w.opClass = 0xB#4) ∨
    (w.opClass = 0xC#4 ∨ w.opClass = 0xD#4 ∨ w.opClass = 0xE#4 ∨ w.opClass = 0xF#4) := by
  have all : ∀ c : Nibble,
      (c = 0x0#4 ∨ c = 0x1#4 ∨ c = 0x2#4 ∨ c = 0x3#4) ∨ (c = 0x4#4 ∨ c = 0x5#4 ∨ c = 0x6#4 ∨ c = 0x7#4) ∨
      (c = 0x8#4 ∨ c = 0x9#4 ∨ c = 0xA#4 ∨ c = 0xB#4) ∨ (c = 0xC#4 ∨ c = 0xD#4 ∨ c = 0xE#4 ∨ c = 0xF#4) := by decide
  exact all w.opClass

section Classes
variable {w : Word}

theorem decode_cls (h : w.opClass = 0x0#4) (hn : w.nn = 0xE0#8) : decode w = .cls w.xBits := by
  simp [decode, decodeClass0, h, hn]
theorem decode_ret (h : w.opClass = 0x0#4) (hn : w.nn = 0xEE#8) : decode w = .ret w.xBits := by
  simp [decode, decodeClass0, h, hn]
theorem decode_nop0nnn (h : w.opClass = 0x0#4) (h1 : w.nn ≠ 0xE0#8) (h2 : w.nn ≠ 0xEE#8) : decode w = .nop0nnn w.nnn := by
  simp [decode, decodeClass0, h, h1, h2]
theorem decode_jp (h : w.opClass = 0x1#4) : decode w = .jp w.nnn := by simp [decode, h]
theorem decode_call (h : w.opClass = 0x2#4) : decode w = .call w.nnn := by simp [decode, h]
theorem decode_seImm (h : w.opClass = 0x3#4) : decode w = .seImm w.x w.nn := by simp [decode, h]
theorem decode_sneImm (h : w.opClass = 0x4#4) : decode w = .sneImm w.x w.nn := by simp [decode, h]
theorem decode_seReg (h : w.opClass = 0x5#4) : decode w = .seReg w.x w.y w.n := by simp [decode, h]
theorem decode_ldImm (h : w.opClass = 0x6#4) : decode w = .ldImm w.x w.nn := by simp [decode, h]
theorem decode_addImm (h : w.opClass = 0x7#4) : decode w = .addImm w.x w.nn := by simp [decode, h]
theorem decode_nop8xyn (h : w.opClass = 0x8#4) : decode w = .nop8xyn w.x w.y w.n := by simp [decode, h]
theorem decode_sneReg (h : w.opClass = 0x9#4) : decode w = .sneReg w.x w.y w.n := by simp [decode, h]
theorem decode_ldI (h : w.opClass = 0xA#4) : decode w = .ldI w.nnn := by simp [decode, h]
theorem decode_nopBnnn (h : w.opClass = 0xB#4) : decode w = .nopBnnn w.nnn := by simp [decode, h]
theorem decode_nopCxnn (h : w.opClass = 0xC#4) : decode w = .nopCxnn w.x w.nn := by simp [decode, h]
theorem decode_drw (h : w.opClass = 0xD#4) : decode w = .drw w.x w.y w.n := by simp [decode, h]
theorem decode_nopExnn (h : w.opClass = 0xE#4) : decode w = .nopExnn w.x w.nn := by simp [decode, h]
theorem decode_nopFxnn (h : w.opClass = 0xF#4) : decode w = .nopFxnn w.x w.nn := by simp [decode, h]

end Classes

/-- The high nibble of a word, kept in place. -/
theorem highNibble_toNat (w : Word) : (w &&& 0xF000#16).toNat = w.toNat / 4096 * 4096 := by
  have e : w &&& 0xF000#16 = (w >>> 12) <<< 12 := by
    ext i hi
    simp only [BitVec.getElem_and, BitVec.getElem_shiftLeft]
    have h16 : i < 16 := hi
    interval_cases i <;> simp
  have := w.isLt
  rw [e]; simp; omega

/-- The high nibble and the low byte of a word, kept in place. -/
theorem highNibbleLowByte_toNat (w : Word) : (w &&& 0xF0FF#16).toNat = w.toNat / 4096 * 4096 + w.toNat % 256 := by
  have e : w &&& 0xF0FF#16 = (w &&& 0xF000#16) ||| (w &&& 0x00FF#16) := by
    rw [← BitVec.and_or_distrib_left]; rfl
  have low : (w &&& 0x00FF#16).toNat = w.toNat % 256 := by
    rw [BitVec.toNat_and]; exact Nat.and_two_pow_sub_one_eq_mod w.toNat 8
  have add := Nat.shiftLeft_add_eq_or_of_lt (b := w.toNat % 256) (i := 12) (by omega) (w.toNat / 4096)
  rw [Nat.shiftLeft_eq] at add
  rw [e, BitVec.toNat_or, highNibble_toNat, low]
  norm_num at add ⊢
  omega

/-- The mask `0xF000` compares the class (R88). -/
theorem mask_class (w : Word) (c : Nibble) : w &&& 0xF000#16 = BitVec.ofNat 16 (c.toNat * 4096) ↔ w.opClass = c := by
  have h1 : w.opClass.toNat = w.toNat / 2 ^ 12 % 2 ^ 4 := slice_toNat w 12 4
  have := w.isLt; have := c.isLt
  constructor
  · intro h
    have h2 := congrArg BitVec.toNat h
    rw [highNibble_toNat, BitVec.toNat_ofNat] at h2
    apply BitVec.eq_of_toNat_eq; omega
  · intro h
    apply BitVec.eq_of_toNat_eq
    rw [highNibble_toNat, BitVec.toNat_ofNat, ← h]; omega

/-- The mask `0xF0FF` compares the class and the low byte (R88). -/
theorem mask_class_lowByte (w : Word) (c : Nibble) (b : Byte) :
    w &&& 0xF0FF#16 = BitVec.ofNat 16 (c.toNat * 4096 + b.toNat) ↔ w.opClass = c ∧ w.nn = b := by
  have h1 : w.opClass.toNat = w.toNat / 2 ^ 12 % 2 ^ 4 := slice_toNat w 12 4
  have h2 : w.nn.toNat = w.toNat / 2 ^ 0 % 2 ^ 8 := slice_toNat w 0 8
  have := w.isLt; have := c.isLt; have := b.isLt
  constructor
  · intro h
    have h3 := congrArg BitVec.toNat h
    rw [highNibbleLowByte_toNat, BitVec.toNat_ofNat] at h3
    constructor <;> apply BitVec.eq_of_toNat_eq <;> omega
  · rintro ⟨h, h'⟩
    apply BitVec.eq_of_toNat_eq
    rw [highNibbleLowByte_toNat, BitVec.toNat_ofNat, ← h, ← h']; omega

end Sys2Proof
end

