-- ==== Sys2Proof/Laws/State.lean ====
section
/-! SUPPORT. One lemma for each field after each update of a single field, so that no proof unfolds a record update. -/

namespace Sys2Proof.Machine.State

variable (s : State)

/-! `setPc` -/

@[simp] theorem setPc_mem (a : Word) : (s.setPc a).mem = s.mem := rfl
@[simp] theorem setPc_v (a : Word) : (s.setPc a).v = s.v := rfl
@[simp] theorem setPc_i (a : Word) : (s.setPc a).i = s.i := rfl
@[simp] theorem setPc_pc (a : Word) : (s.setPc a).pc = a := rfl
@[simp] theorem setPc_stack (a : Word) : (s.setPc a).stack = s.stack := rfl
@[simp] theorem setPc_sp (a : Word) : (s.setPc a).sp = s.sp := rfl
@[simp] theorem setPc_dt (a : Word) : (s.setPc a).dt = s.dt := rfl
@[simp] theorem setPc_st (a : Word) : (s.setPc a).st = s.st := rfl
@[simp] theorem setPc_fb (a : Word) : (s.setPc a).fb = s.fb := rfl
@[simp] theorem setPc_key (a : Word) : (s.setPc a).key = s.key := rfl
@[simp] theorem setPc_run (a : Word) : (s.setPc a).run = s.run := rfl
@[simp] theorem setPc_conf (a : Word) : (s.setPc a).conf = s.conf := rfl
@[simp] theorem setPc_moves (a : Word) : (s.setPc a).moves = s.moves := rfl
@[simp] theorem setPc_draws (a : Word) : (s.setPc a).draws = s.draws := rfl

/-! `setI` -/

@[simp] theorem setI_mem (a : Word) : (s.setI a).mem = s.mem := rfl
@[simp] theorem setI_v (a : Word) : (s.setI a).v = s.v := rfl
@[simp] theorem setI_i (a : Word) : (s.setI a).i = a := rfl
@[simp] theorem setI_pc (a : Word) : (s.setI a).pc = s.pc := rfl
@[simp] theorem setI_stack (a : Word) : (s.setI a).stack = s.stack := rfl
@[simp] theorem setI_sp (a : Word) : (s.setI a).sp = s.sp := rfl
@[simp] theorem setI_dt (a : Word) : (s.setI a).dt = s.dt := rfl
@[simp] theorem setI_st (a : Word) : (s.setI a).st = s.st := rfl
@[simp] theorem setI_fb (a : Word) : (s.setI a).fb = s.fb := rfl
@[simp] theorem setI_key (a : Word) : (s.setI a).key = s.key := rfl
@[simp] theorem setI_run (a : Word) : (s.setI a).run = s.run := rfl
@[simp] theorem setI_conf (a : Word) : (s.setI a).conf = s.conf := rfl
@[simp] theorem setI_moves (a : Word) : (s.setI a).moves = s.moves := rfl
@[simp] theorem setI_draws (a : Word) : (s.setI a).draws = s.draws := rfl

/-! `setRegs` -/

@[simp] theorem setRegs_mem (v : Vector Byte 16) : (s.setRegs v).mem = s.mem := rfl
@[simp] theorem setRegs_v (v : Vector Byte 16) : (s.setRegs v).v = v := rfl
@[simp] theorem setRegs_i (v : Vector Byte 16) : (s.setRegs v).i = s.i := rfl
@[simp] theorem setRegs_pc (v : Vector Byte 16) : (s.setRegs v).pc = s.pc := rfl
@[simp] theorem setRegs_stack (v : Vector Byte 16) : (s.setRegs v).stack = s.stack := rfl
@[simp] theorem setRegs_sp (v : Vector Byte 16) : (s.setRegs v).sp = s.sp := rfl
@[simp] theorem setRegs_dt (v : Vector Byte 16) : (s.setRegs v).dt = s.dt := rfl
@[simp] theorem setRegs_st (v : Vector Byte 16) : (s.setRegs v).st = s.st := rfl
@[simp] theorem setRegs_fb (v : Vector Byte 16) : (s.setRegs v).fb = s.fb := rfl
@[simp] theorem setRegs_key (v : Vector Byte 16) : (s.setRegs v).key = s.key := rfl
@[simp] theorem setRegs_run (v : Vector Byte 16) : (s.setRegs v).run = s.run := rfl
@[simp] theorem setRegs_conf (v : Vector Byte 16) : (s.setRegs v).conf = s.conf := rfl
@[simp] theorem setRegs_moves (v : Vector Byte 16) : (s.setRegs v).moves = s.moves := rfl
@[simp] theorem setRegs_draws (v : Vector Byte 16) : (s.setRegs v).draws = s.draws := rfl

/-! `setFb` -/

@[simp] theorem setFb_mem (fb : Framebuffer) : (s.setFb fb).mem = s.mem := rfl
@[simp] theorem setFb_v (fb : Framebuffer) : (s.setFb fb).v = s.v := rfl
@[simp] theorem setFb_i (fb : Framebuffer) : (s.setFb fb).i = s.i := rfl
@[simp] theorem setFb_pc (fb : Framebuffer) : (s.setFb fb).pc = s.pc := rfl
@[simp] theorem setFb_stack (fb : Framebuffer) : (s.setFb fb).stack = s.stack := rfl
@[simp] theorem setFb_sp (fb : Framebuffer) : (s.setFb fb).sp = s.sp := rfl
@[simp] theorem setFb_dt (fb : Framebuffer) : (s.setFb fb).dt = s.dt := rfl
@[simp] theorem setFb_st (fb : Framebuffer) : (s.setFb fb).st = s.st := rfl
@[simp] theorem setFb_fb (fb : Framebuffer) : (s.setFb fb).fb = fb := rfl
@[simp] theorem setFb_key (fb : Framebuffer) : (s.setFb fb).key = s.key := rfl
@[simp] theorem setFb_run (fb : Framebuffer) : (s.setFb fb).run = s.run := rfl
@[simp] theorem setFb_conf (fb : Framebuffer) : (s.setFb fb).conf = s.conf := rfl
@[simp] theorem setFb_moves (fb : Framebuffer) : (s.setFb fb).moves = s.moves := rfl
@[simp] theorem setFb_draws (fb : Framebuffer) : (s.setFb fb).draws = s.draws := rfl

/-! `setTimers` -/

@[simp] theorem setTimers_mem (dt st : Byte) : (s.setTimers dt st).mem = s.mem := rfl
@[simp] theorem setTimers_v (dt st : Byte) : (s.setTimers dt st).v = s.v := rfl
@[simp] theorem setTimers_i (dt st : Byte) : (s.setTimers dt st).i = s.i := rfl
@[simp] theorem setTimers_pc (dt st : Byte) : (s.setTimers dt st).pc = s.pc := rfl
@[simp] theorem setTimers_stack (dt st : Byte) : (s.setTimers dt st).stack = s.stack := rfl
@[simp] theorem setTimers_sp (dt st : Byte) : (s.setTimers dt st).sp = s.sp := rfl
@[simp] theorem setTimers_dt (dt st : Byte) : (s.setTimers dt st).dt = dt := rfl
@[simp] theorem setTimers_st (dt st : Byte) : (s.setTimers dt st).st = st := rfl
@[simp] theorem setTimers_fb (dt st : Byte) : (s.setTimers dt st).fb = s.fb := rfl
@[simp] theorem setTimers_key (dt st : Byte) : (s.setTimers dt st).key = s.key := rfl
@[simp] theorem setTimers_run (dt st : Byte) : (s.setTimers dt st).run = s.run := rfl
@[simp] theorem setTimers_conf (dt st : Byte) : (s.setTimers dt st).conf = s.conf := rfl
@[simp] theorem setTimers_moves (dt st : Byte) : (s.setTimers dt st).moves = s.moves := rfl
@[simp] theorem setTimers_draws (dt st : Byte) : (s.setTimers dt st).draws = s.draws := rfl

/-! `setRun` -/

@[simp] theorem setRun_mem (r : RunState) : (s.setRun r).mem = s.mem := rfl
@[simp] theorem setRun_v (r : RunState) : (s.setRun r).v = s.v := rfl
@[simp] theorem setRun_i (r : RunState) : (s.setRun r).i = s.i := rfl
@[simp] theorem setRun_pc (r : RunState) : (s.setRun r).pc = s.pc := rfl
@[simp] theorem setRun_stack (r : RunState) : (s.setRun r).stack = s.stack := rfl
@[simp] theorem setRun_sp (r : RunState) : (s.setRun r).sp = s.sp := rfl
@[simp] theorem setRun_dt (r : RunState) : (s.setRun r).dt = s.dt := rfl
@[simp] theorem setRun_st (r : RunState) : (s.setRun r).st = s.st := rfl
@[simp] theorem setRun_fb (r : RunState) : (s.setRun r).fb = s.fb := rfl
@[simp] theorem setRun_key (r : RunState) : (s.setRun r).key = s.key := rfl
@[simp] theorem setRun_run (r : RunState) : (s.setRun r).run = r := rfl
@[simp] theorem setRun_conf (r : RunState) : (s.setRun r).conf = s.conf := rfl
@[simp] theorem setRun_moves (r : RunState) : (s.setRun r).moves = s.moves := rfl
@[simp] theorem setRun_draws (r : RunState) : (s.setRun r).draws = s.draws := rfl

/-! `setKey` -/

@[simp] theorem setKey_mem (k : Fin 16) (p : Bool) : (s.setKey k p).mem = s.mem := rfl
@[simp] theorem setKey_v (k : Fin 16) (p : Bool) : (s.setKey k p).v = s.v := rfl
@[simp] theorem setKey_i (k : Fin 16) (p : Bool) : (s.setKey k p).i = s.i := rfl
@[simp] theorem setKey_pc (k : Fin 16) (p : Bool) : (s.setKey k p).pc = s.pc := rfl
@[simp] theorem setKey_stack (k : Fin 16) (p : Bool) : (s.setKey k p).stack = s.stack := rfl
@[simp] theorem setKey_sp (k : Fin 16) (p : Bool) : (s.setKey k p).sp = s.sp := rfl
@[simp] theorem setKey_dt (k : Fin 16) (p : Bool) : (s.setKey k p).dt = s.dt := rfl
@[simp] theorem setKey_st (k : Fin 16) (p : Bool) : (s.setKey k p).st = s.st := rfl
@[simp] theorem setKey_fb (k : Fin 16) (p : Bool) : (s.setKey k p).fb = s.fb := rfl
@[simp] theorem setKey_key (k : Fin 16) (p : Bool) : (s.setKey k p).key = s.key.set k.val p k.isLt := rfl
@[simp] theorem setKey_run (k : Fin 16) (p : Bool) : (s.setKey k p).run = s.run := rfl
@[simp] theorem setKey_conf (k : Fin 16) (p : Bool) : (s.setKey k p).conf = s.conf := rfl
@[simp] theorem setKey_moves (k : Fin 16) (p : Bool) : (s.setKey k p).moves = s.moves := rfl
@[simp] theorem setKey_draws (k : Fin 16) (p : Bool) : (s.setKey k p).draws = s.draws := rfl

/-! `setMem` -/

@[simp] theorem setMem_mem (m : Memory) : (s.setMem m).mem = m := rfl
@[simp] theorem setMem_v (m : Memory) : (s.setMem m).v = s.v := rfl
@[simp] theorem setMem_i (m : Memory) : (s.setMem m).i = s.i := rfl
@[simp] theorem setMem_pc (m : Memory) : (s.setMem m).pc = s.pc := rfl
@[simp] theorem setMem_stack (m : Memory) : (s.setMem m).stack = s.stack := rfl
@[simp] theorem setMem_sp (m : Memory) : (s.setMem m).sp = s.sp := rfl
@[simp] theorem setMem_dt (m : Memory) : (s.setMem m).dt = s.dt := rfl
@[simp] theorem setMem_st (m : Memory) : (s.setMem m).st = s.st := rfl
@[simp] theorem setMem_fb (m : Memory) : (s.setMem m).fb = s.fb := rfl
@[simp] theorem setMem_key (m : Memory) : (s.setMem m).key = s.key := rfl
@[simp] theorem setMem_run (m : Memory) : (s.setMem m).run = s.run := rfl
@[simp] theorem setMem_conf (m : Memory) : (s.setMem m).conf = s.conf := rfl
@[simp] theorem setMem_moves (m : Memory) : (s.setMem m).moves = s.moves := rfl
@[simp] theorem setMem_draws (m : Memory) : (s.setMem m).draws = s.draws := rfl

/-! `setStack` -/

@[simp] theorem setStack_mem (k : Vector Word 12) (n : Fin 13) : (s.setStack k n).mem = s.mem := rfl
@[simp] theorem setStack_v (k : Vector Word 12) (n : Fin 13) : (s.setStack k n).v = s.v := rfl
@[simp] theorem setStack_i (k : Vector Word 12) (n : Fin 13) : (s.setStack k n).i = s.i := rfl
@[simp] theorem setStack_pc (k : Vector Word 12) (n : Fin 13) : (s.setStack k n).pc = s.pc := rfl
@[simp] theorem setStack_stack (k : Vector Word 12) (n : Fin 13) : (s.setStack k n).stack = k := rfl
@[simp] theorem setStack_sp (k : Vector Word 12) (n : Fin 13) : (s.setStack k n).sp = n := rfl
@[simp] theorem setStack_dt (k : Vector Word 12) (n : Fin 13) : (s.setStack k n).dt = s.dt := rfl
@[simp] theorem setStack_st (k : Vector Word 12) (n : Fin 13) : (s.setStack k n).st = s.st := rfl
@[simp] theorem setStack_fb (k : Vector Word 12) (n : Fin 13) : (s.setStack k n).fb = s.fb := rfl
@[simp] theorem setStack_key (k : Vector Word 12) (n : Fin 13) : (s.setStack k n).key = s.key := rfl
@[simp] theorem setStack_run (k : Vector Word 12) (n : Fin 13) : (s.setStack k n).run = s.run := rfl
@[simp] theorem setStack_conf (k : Vector Word 12) (n : Fin 13) : (s.setStack k n).conf = s.conf := rfl
@[simp] theorem setStack_moves (k : Vector Word 12) (n : Fin 13) : (s.setStack k n).moves = s.moves := rfl
@[simp] theorem setStack_draws (k : Vector Word 12) (n : Fin 13) : (s.setStack k n).draws = s.draws := rfl

/-! `setConf` -/

@[simp] theorem setConf_mem (conf : Config.HostConfig) : (s.setConf conf).mem = s.mem := rfl
@[simp] theorem setConf_v (conf : Config.HostConfig) : (s.setConf conf).v = s.v := rfl
@[simp] theorem setConf_i (conf : Config.HostConfig) : (s.setConf conf).i = s.i := rfl
@[simp] theorem setConf_pc (conf : Config.HostConfig) : (s.setConf conf).pc = s.pc := rfl
@[simp] theorem setConf_stack (conf : Config.HostConfig) : (s.setConf conf).stack = s.stack := rfl
@[simp] theorem setConf_sp (conf : Config.HostConfig) : (s.setConf conf).sp = s.sp := rfl
@[simp] theorem setConf_dt (conf : Config.HostConfig) : (s.setConf conf).dt = s.dt := rfl
@[simp] theorem setConf_st (conf : Config.HostConfig) : (s.setConf conf).st = s.st := rfl
@[simp] theorem setConf_fb (conf : Config.HostConfig) : (s.setConf conf).fb = s.fb := rfl
@[simp] theorem setConf_key (conf : Config.HostConfig) : (s.setConf conf).key = s.key := rfl
@[simp] theorem setConf_run (conf : Config.HostConfig) : (s.setConf conf).run = s.run := rfl
@[simp] theorem setConf_conf (conf : Config.HostConfig) : (s.setConf conf).conf = conf := rfl
@[simp] theorem setConf_moves (conf : Config.HostConfig) : (s.setConf conf).moves = s.moves := rfl
@[simp] theorem setConf_draws (conf : Config.HostConfig) : (s.setConf conf).draws = s.draws := rfl

/-! `setMoves` -/

@[simp] theorem setMoves_mem (ms : List Move) : (s.setMoves ms).mem = s.mem := rfl
@[simp] theorem setMoves_v (ms : List Move) : (s.setMoves ms).v = s.v := rfl
@[simp] theorem setMoves_i (ms : List Move) : (s.setMoves ms).i = s.i := rfl
@[simp] theorem setMoves_pc (ms : List Move) : (s.setMoves ms).pc = s.pc := rfl
@[simp] theorem setMoves_stack (ms : List Move) : (s.setMoves ms).stack = s.stack := rfl
@[simp] theorem setMoves_sp (ms : List Move) : (s.setMoves ms).sp = s.sp := rfl
@[simp] theorem setMoves_dt (ms : List Move) : (s.setMoves ms).dt = s.dt := rfl
@[simp] theorem setMoves_st (ms : List Move) : (s.setMoves ms).st = s.st := rfl
@[simp] theorem setMoves_fb (ms : List Move) : (s.setMoves ms).fb = s.fb := rfl
@[simp] theorem setMoves_key (ms : List Move) : (s.setMoves ms).key = s.key := rfl
@[simp] theorem setMoves_run (ms : List Move) : (s.setMoves ms).run = s.run := rfl
@[simp] theorem setMoves_conf (ms : List Move) : (s.setMoves ms).conf = s.conf := rfl
@[simp] theorem setMoves_moves (ms : List Move) : (s.setMoves ms).moves = ms := rfl
@[simp] theorem setMoves_draws (ms : List Move) : (s.setMoves ms).draws = s.draws := rfl

/-! `countDraw` -/

@[simp] theorem countDraw_mem : (s.countDraw).mem = s.mem := rfl
@[simp] theorem countDraw_v : (s.countDraw).v = s.v := rfl
@[simp] theorem countDraw_i : (s.countDraw).i = s.i := rfl
@[simp] theorem countDraw_pc : (s.countDraw).pc = s.pc := rfl
@[simp] theorem countDraw_stack : (s.countDraw).stack = s.stack := rfl
@[simp] theorem countDraw_sp : (s.countDraw).sp = s.sp := rfl
@[simp] theorem countDraw_dt : (s.countDraw).dt = s.dt := rfl
@[simp] theorem countDraw_st : (s.countDraw).st = s.st := rfl
@[simp] theorem countDraw_fb : (s.countDraw).fb = s.fb := rfl
@[simp] theorem countDraw_key : (s.countDraw).key = s.key := rfl
@[simp] theorem countDraw_run : (s.countDraw).run = s.run := rfl
@[simp] theorem countDraw_conf : (s.countDraw).conf = s.conf := rfl
@[simp] theorem countDraw_moves : (s.countDraw).moves = s.moves := rfl
@[simp] theorem countDraw_draws : (s.countDraw).draws = s.draws + 1 := rfl

end Sys2Proof.Machine.State
end

