-- ==== Sys2Proof/Laws/Registers.lean ====
section
/-! SUPPORT. Registers and pixels: a read after a write, and the frame of every operand write. -/

namespace Sys2Proof.Machine

/-- A register read after a register write. -/
theorem State.readV_writeV (s : State) (x y : RegIx) (b : Byte) :
    (s.writeV x b).readV y = if x = y then b else s.readV y := by
  unfold State.readV State.writeV
  simp only [State.setRegs_v, Vector.getElem_set, Fin.ext_iff]

@[simp] theorem State.readV_writeV_self (s : State) (x : RegIx) (b : Byte) : (s.writeV x b).readV x = b := by
  simp [State.readV_writeV]

theorem State.readV_writeV_other (s : State) (x y : RegIx) (b : Byte) (h : y ≠ x) :
    (s.writeV x b).readV y = s.readV y := by
  simp [State.readV_writeV, Ne.symm h]

section Fields
variable (s : State) (x : RegIx) (b : Byte) (hit : Bool)

@[simp] theorem State.writeV_mem : (s.writeV x b).mem = s.mem := rfl
@[simp] theorem State.writeV_i : (s.writeV x b).i = s.i := rfl
@[simp] theorem State.writeV_pc : (s.writeV x b).pc = s.pc := rfl
@[simp] theorem State.writeV_stack : (s.writeV x b).stack = s.stack := rfl
@[simp] theorem State.writeV_sp : (s.writeV x b).sp = s.sp := rfl
@[simp] theorem State.writeV_dt : (s.writeV x b).dt = s.dt := rfl
@[simp] theorem State.writeV_st : (s.writeV x b).st = s.st := rfl
@[simp] theorem State.writeV_fb : (s.writeV x b).fb = s.fb := rfl
@[simp] theorem State.writeV_key : (s.writeV x b).key = s.key := rfl
@[simp] theorem State.writeV_run : (s.writeV x b).run = s.run := rfl
@[simp] theorem State.writeV_moves : (s.writeV x b).moves = s.moves := rfl
@[simp] theorem State.writeV_draws : (s.writeV x b).draws = s.draws := rfl

/-- The collision flag is an ordinary write of `V[15]`. -/
theorem State.setCollision_eq : s.setCollision hit = s.writeV 15 (collisionByte hit) := rfl

/-- A register is read from the register file alone. -/
theorem State.readV_congr (s t : State) (h : t.v = s.v) (y : RegIx) : t.readV y = s.readV y := by
  simp only [State.readV, h]

end Fields

/-- A pixel after one pixel is inverted. -/
theorem pixel_invertPixel (fb : Framebuffer) (r r' : Fin 32) (c c' : Fin 64) :
    pixel (invertPixel fb r c) r' c' = if r = r' ∧ c = c' then !pixel fb r c else pixel fb r' c' := by
  have row : (invertPixel fb r c)[r'.val] =
      if r.val = r'.val then fb[r.val].set c.val (!pixel fb r c) c.isLt else fb[r'.val] :=
    Vector.getElem_set r.isLt r'.isLt
  by_cases hr : r = r'
  · subst hr
    have col : (fb[r.val].set c.val (!pixel fb r c) c.isLt)[c'.val] =
        if c.val = c'.val then !pixel fb r c else fb[r.val][c'.val] :=
      Vector.getElem_set c.isLt c'.isLt
    rw [if_pos rfl] at row
    show (invertPixel fb r c)[r.val][c'.val] = _
    rw [row, col]
    simp [Fin.ext_iff, pixel]
  · rw [if_neg (fun h => hr (Fin.ext h))] at row
    show (invertPixel fb r c)[r'.val][c'.val] = _
    rw [row]
    simp [hr, pixel]

/-- Every pixel of the blank screen is off. -/
@[simp] theorem pixel_blankScreen (r : Fin 32) (c : Fin 64) : pixel blankScreen r c = false := by
  simp [pixel, blankScreen]

/-- Two framebuffers with the same pixels are equal. -/
theorem framebuffer_ext (f g : Framebuffer) (h : ∀ r c, pixel f r c = pixel g r c) : f = g := by
  apply Vector.ext
  intro r hr
  apply Vector.ext
  intro c hc
  exact h ⟨r, hr⟩ ⟨c, hc⟩

end Sys2Proof.Machine
end

