-- ==== Sys2Proof/Laws/Drawing.lean ====
section
/-! SUPPORT. Drawing: what one sprite row does to a canvas, column by column, told pixel by pixel. -/

namespace Sys2Proof.Machine

/-- One sprite bit: its pixel becomes the exclusive or, and the flag is raised by a set bit on a pixel that was on (R158). -/
theorem drawPixel_spec (bit : Bool) (r r' : Fin 32) (c c' : Fin 64) (d : Canvas) :
    pixel (drawPixel bit r c d).1 r' c' = (pixel d.1 r' c' ^^ (decide (r = r' ∧ c = c') && bit)) ∧
    (drawPixel bit r c d).2 = (d.2 || (bit && pixel d.1 r c)) := by
  cases bit
  · simp [drawPixel]
  · simp only [drawPixel, if_true, collides, Bool.true_and, and_true, pixel_invertPixel]
    by_cases h : r = r' ∧ c = c'
    · obtain ⟨rfl, rfl⟩ := h; simp
    · simp [h]

/-- The bits that the columns `col .. col + left - 1` of a sprite byte put on a column of the screen (R157, R158). -/
def bitOn (b : Byte) (ox col left : Nat) (c : Fin 64) : Bool :=
  decide (ox + col ≤ c.val ∧ c.val < ox + col + left) && spriteBit b (c.val - ox)

/-- One sprite row over the columns that are left: every pixel of its screen row becomes the exclusive or with the bit that
falls on it, other rows are kept, and the flag is raised exactly by a set bit on a pixel that was on. -/
theorem drawCols_spec (b : Byte) (ox : Nat) (r : Fin 32) (left col : Nat) (d : Canvas) :
    (∀ r' c', pixel (drawCols b ox r left col d).1 r' c' = (pixel d.1 r' c' ^^ (decide (r = r') && bitOn b ox col left c'))) ∧
    ((drawCols b ox r left col d).2 = true ↔ d.2 = true ∨ ∃ c, bitOn b ox col left c = true ∧ pixel d.1 r c = true) := by
  induction left generalizing col d with
  | zero =>
    have none : ∀ c : Fin 64, bitOn b ox col 0 c = false := by
      intro c; unfold bitOn; simp
    simp [drawCols, none]
  | succ left ih =>
    by_cases h : ox + col < Config.dispW
    · have ih := ih (col + 1) (drawPixel (spriteBit b col) r ⟨ox + col, h⟩ d)
      have split : ∀ c : Fin 64, bitOn b ox col (left + 1) c =
          ((decide (⟨ox + col, h⟩ = c) && spriteBit b col) || bitOn b ox (col + 1) left c) := by
        intro c
        unfold bitOn
        by_cases hc : c.val = ox + col
        · have : (⟨ox + col, h⟩ : Fin 64) = c := Fin.ext hc.symm
          simp [this, hc]
        · have : ¬ (⟨ox + col, h⟩ : Fin 64) = c := fun hh => hc (by rw [← hh])
          have e : (ox + col ≤ c.val ∧ c.val < ox + col + (left + 1)) ↔ (ox + (col + 1) ≤ c.val ∧ c.val < ox + (col + 1) + left) := by
            omega
          simp [this, e]
      have apart : ∀ c : Fin 64, (⟨ox + col, h⟩ : Fin 64) = c → bitOn b ox (col + 1) left c = false := by
        intro c hc; subst hc; unfold bitOn; simp
      simp only [drawCols, dif_pos h]
      constructor
      · intro r' c'
        rw [ih.1 r' c', (drawPixel_spec _ r r' _ c' d).1, split c']
        by_cases hr : r = r'
        · by_cases hc : (⟨ox + col, h⟩ : Fin 64) = c'
          · simp [hr, hc, apart c' hc]
          · simp [hr, hc]
        · simp [hr]
      · rw [ih.2, (drawPixel_spec _ r r _ ⟨ox + col, h⟩ d).2]
        constructor
        · rintro (h1 | ⟨c, hb, hp⟩)
          · rcases Bool.or_eq_true_iff.1 h1 with h1 | h1
            · exact .inl h1
            · rw [Bool.and_eq_true] at h1
              exact .inr ⟨⟨ox + col, h⟩, by rw [split]; simp [h1.1], h1.2⟩
          · have hne : ¬ (⟨ox + col, h⟩ : Fin 64) = c := fun hc => by rw [apart c hc] at hb; cases hb
            rw [(drawPixel_spec _ r r _ c d).1] at hp
            simp only [hne, and_false, decide_false, Bool.false_and, Bool.xor_false] at hp
            exact .inr ⟨c, by rw [split]; simp [hb], hp⟩
        · rintro (h1 | ⟨c, hb, hp⟩)
          · exact .inl (by simp [h1])
          · rw [split, Bool.or_eq_true, Bool.and_eq_true, decide_eq_true_eq] at hb
            rcases hb with ⟨hc, hb⟩ | hb
            · subst hc; exact .inl (by simp [hb, hp])
            · have hne : ¬ (⟨ox + col, h⟩ : Fin 64) = c := fun hc => by rw [apart c hc] at hb; cases hb
              refine .inr ⟨c, hb, ?_⟩
              rw [(drawPixel_spec _ r r _ c d).1]
              simp [hne, hp]
    · have none : ∀ c : Fin 64, bitOn b ox col (left + 1) c = false := by
        intro c; unfold bitOn; have := c.isLt; simp [Config.dispW] at h ⊢; omega
      simp [drawCols, h, none]

/-- What `drawRows` does at one more row: nothing and an end of the draw at the memory bound (R155) or the bottom edge (R156),
else that row and the rows below. -/
theorem drawRows_succ (m : Memory) (base ox oy left row : Nat) (d : Canvas) :
    (m.read? (base + row) = none ∧ drawRows m base ox oy (left + 1) row d = d) ∨
    (32 ≤ oy + row ∧ drawRows m base ox oy (left + 1) row d = d) ∨
    ∃ (b : Byte) (h : oy + row < 32), m.read? (base + row) = some b ∧
      drawRows m base ox oy (left + 1) row d =
        drawRows m base ox oy left (row + 1) (drawCols b ox ⟨oy + row, h⟩ 8 0 d) := by
  cases hr : m.read? (base + row) with
  | none => exact .inl ⟨rfl, by simp [drawRows, hr]⟩
  | some b =>
    by_cases h : oy + row < 32
    · exact .inr (.inr ⟨b, h, rfl, by simp [drawRows, hr, h, Config.dispH]⟩)
    · exact .inr (.inl ⟨by omega, by simp [drawRows, hr, h, Config.dispH]⟩)

end Sys2Proof.Machine
end

