-- ==== Sys2Proof/Laws/Memory.lean ====
section
/-! SUPPORT. Memory: a read after a write, the canonical form kept by every memory operation, and what a fetch reads. -/

namespace Sys2Proof.Machine

theorem cellsGet_cellsCons (a b : Nat) (v : Byte) (rest : List Host.Cell) (h : cellsGet rest a = resetByte a) :
    cellsGet (cellsCons a v rest) b = if a = b then v else cellsGet rest b := by
  unfold cellsCons
  by_cases hv : v = resetByte a
  · by_cases hab : a = b
    · subst hab; simp [hv, h]
    · simp [hv, hab]
  · simp [hv, cellsGet]

/-- Below its lower bound a list of cells in the canonical form lists nothing. -/
theorem cellsGet_below (cells : List Host.Cell) (lo a : Nat) (hw : cellsWf lo cells = true) (ha : a < lo) :
    cellsGet cells a = resetByte a := by
  induction cells generalizing lo with
  | nil => rfl
  | cons c rest ih =>
    obtain ⟨k, v⟩ := c
    simp only [cellsWf, Bool.and_eq_true, decide_eq_true_eq] at hw
    have hk : k ≠ a := by omega
    simp only [cellsGet, hk, if_false]
    exact ih (k + 1) hw.2 (by omega)

/-- A lower bound may be lowered. -/
theorem cellsWf_mono (cells : List Host.Cell) (lo lo' : Nat) (hw : cellsWf lo cells = true) (h : lo' ≤ lo) :
    cellsWf lo' cells = true := by
  cases cells with
  | nil => rfl
  | cons c rest =>
    obtain ⟨k, v⟩ := c
    simp only [cellsWf, Bool.and_eq_true, decide_eq_true_eq] at hw ⊢
    exact ⟨⟨⟨by omega, hw.1.1.2⟩, hw.1.2⟩, hw.2⟩

theorem cellsWf_cellsCons (lo a : Nat) (v : Byte) (rest : List Host.Cell) (hlo : lo ≤ a) (ha : a < Config.memSize)
    (hw : cellsWf (a + 1) rest = true) : cellsWf lo (cellsCons a v rest) = true := by
  unfold cellsCons
  by_cases hv : v = resetByte a
  · simpa [hv] using cellsWf_mono rest (a + 1) lo hw (by omega)
  · simp [hv, cellsWf, hlo, ha, hw]

/-- A write keeps the canonical form. -/
theorem cellsWf_cellsSet (cells : List Host.Cell) (lo a : Nat) (v : Byte) (hw : cellsWf lo cells = true) (hlo : lo ≤ a)
    (ha : a < Config.memSize) : cellsWf lo (cellsSet cells a v) = true := by
  induction cells generalizing lo with
  | nil => exact cellsWf_cellsCons lo a v [] hlo ha rfl
  | cons c rest ih =>
    obtain ⟨k, w⟩ := c
    have hw' := hw
    simp only [cellsWf, Bool.and_eq_true, decide_eq_true_eq] at hw'
    obtain ⟨⟨⟨h1, h2⟩, h3⟩, h4⟩ := hw'
    simp only [cellsSet]
    split_ifs with hlt heq
    · simp only [cellsWf, Bool.and_eq_true, decide_eq_true_eq]
      exact ⟨⟨⟨h1, h2⟩, h3⟩, ih (k + 1) h4 (by omega)⟩
    · subst heq
      exact cellsWf_cellsCons lo k v rest hlo ha h4
    · refine cellsWf_cellsCons lo a v _ hlo ha ?_
      simp only [cellsWf, Bool.and_eq_true, decide_eq_true_eq]
      exact ⟨⟨⟨by omega, h2⟩, h3⟩, h4⟩

/-- A read after a write: the value written at that address, the old one at every other. -/
theorem cellsGet_cellsSet (cells : List Host.Cell) (lo a b : Nat) (v : Byte) (hw : cellsWf lo cells = true) :
    cellsGet (cellsSet cells a v) b = if a = b then v else cellsGet cells b := by
  induction cells generalizing lo with
  | nil => exact cellsGet_cellsCons a b v [] rfl
  | cons c rest ih =>
    obtain ⟨k, w⟩ := c
    have hw' := hw
    simp only [cellsWf, Bool.and_eq_true, decide_eq_true_eq] at hw'
    obtain ⟨⟨⟨h1, h2⟩, h3⟩, h4⟩ := hw'
    simp only [cellsSet]
    have below : k ≥ a → cellsGet rest a = resetByte a := fun h => cellsGet_below rest (k + 1) a h4 (by omega)
    by_cases hlt : k < a
    · rw [if_pos hlt]
      by_cases hab : a = b
      · subst hab
        have hk : k ≠ a := by omega
        simp [cellsGet, hk, ih (k + 1) h4]
      · simp only [cellsGet, ih (k + 1) h4, if_neg hab]
    · rw [if_neg hlt]
      by_cases heq : k = a
      · rw [if_pos heq, cellsGet_cellsCons a b v rest (below (by omega))]
        by_cases hab : a = b
        · simp [hab]
        · have hkb : k ≠ b := by omega
          simp [cellsGet, hab, hkb]
      · rw [if_neg heq]
        refine cellsGet_cellsCons a b v _ ?_
        simp only [cellsGet, if_neg heq]
        exact below (by omega)

/-- Every write keeps memory's canonical form. -/
theorem Memory.wf_write (m : Memory) (a : Nat) (v : Byte) (hw : m.wf = true) : (m.write a v).wf = true := by
  unfold Memory.write
  split_ifs with ha
  · exact cellsWf_cellsSet m.cells 0 a v hw (Nat.zero_le a) ha
  · exact hw

/-- Writing bytes one after another keeps memory's canonical form. -/
theorem Memory.wf_writeBytes (bs : List Byte) (m : Memory) (a : Nat) (hw : m.wf = true) : (m.writeBytes a bs).wf = true := by
  induction bs generalizing m a with
  | nil => exact hw
  | cons b rest ih => exact ih _ _ (m.wf_write a b hw)

/-- A read after a write: the value written at that address, the old one at every other. -/
theorem Memory.read?_write (m : Memory) (a b : Nat) (v : Byte) (hw : m.wf = true) (ha : a < Config.memSize) :
    (m.write a v).read? b = if a = b then some v else m.read? b := by
  unfold Memory.write Memory.read?
  rw [if_pos ha]
  by_cases hab : a = b
  · subst hab; simp [ha, cellsGet_cellsSet m.cells 0 a a v hw]
  · simp only [hab, if_false, cellsGet_cellsSet m.cells 0 a b v hw]

/-- After bytes are written from an address up, each of them is read back, and every other address reads as before. -/
theorem Memory.read?_writeBytes (bs : List Byte) (m : Memory) (a b : Nat) (hw : m.wf = true)
    (ha : a + bs.length ≤ Config.memSize) :
    (m.writeBytes a bs).read? b = if a ≤ b ∧ b < a + bs.length then bs[b - a]? else m.read? b := by
  induction bs generalizing m a with
  | nil => simp [Memory.writeBytes]
  | cons v rest ih =>
    simp only [List.length_cons] at ha ⊢
    simp only [Memory.writeBytes]
    rw [ih _ _ (m.wf_write a v hw) (by omega), m.read?_write a b v hw (by omega)]
    by_cases h1 : a + 1 ≤ b ∧ b < a + 1 + rest.length
    · rw [if_pos h1, if_pos (by omega), show b - a = (b - (a + 1)) + 1 by omega, List.getElem?_cons_succ]
    · rw [if_neg h1]
      by_cases hab : a = b
      · subst hab; simp
      · rw [if_neg hab, if_neg (by omega)]

/-- An unlisted address of the font table reads as FONT says (R67). -/
theorem resetByte_font (k : Nat) (hk : k < 80) : resetByte (Config.fontBase + k) = Config.font.getD k 0#8 := by
  have h : Config.fontBase ≤ Config.fontBase + k ∧ Config.fontBase + k < Config.fontEnd := by
    simp only [Config.fontBase, Config.fontEnd]; omega
  unfold resetByte
  rw [if_pos h, Nat.add_sub_cancel_left]

/-- An unlisted address outside the font table reads as zero (R67). -/
theorem resetByte_other (a : Nat) (h : ¬ (Config.fontBase ≤ a ∧ a < Config.fontEnd)) : resetByte a = 0#8 := if_neg h

/-- Memory that lists nothing reads as the reset contents. -/
theorem Memory.read?_nothingListed (a : Nat) (h : a < Config.memSize) : Memory.read? ⟨[]⟩ a = some (resetByte a) := if_pos h

/-- A byte is read exactly at the addresses of memory (R23). -/
theorem Memory.read?_isSome (m : Memory) (a : Nat) : (m.read? a).isSome = true ↔ a < 4096 := by
  unfold Memory.read?
  split_ifs with h <;> simp_all [Config.memSize]

theorem Memory.read?_eq_none (m : Memory) (a : Nat) : m.read? a = none ↔ 4096 ≤ a := by
  unfold Memory.read?
  split_ifs with h <;> simp_all [Config.memSize]

/-- What a fetch reads: two bytes, the high one at the lower address (R60). -/
theorem fetchWord?_eq_some (m : Memory) (a : Nat) (w : Word) :
    fetchWord? m a = some w ↔ ∃ hi lo, m.read? a = some hi ∧ m.read? (a + 1) = some lo ∧ wordOfBytes hi lo = w := by
  unfold fetchWord?
  cases h1 : m.read? a <;> cases h2 : m.read? (a + 1) <;> simp

/-- There is no word to fetch exactly when a byte of it is outside memory, the check of R103. -/
theorem fetchWord?_eq_none (m : Memory) (a : Nat) : fetchWord? m a = none ↔ 4096 ≤ a + 1 := by
  unfold fetchWord?
  have h1 := m.read?_eq_none a
  have h2 := m.read?_eq_none (a + 1)
  cases h3 : m.read? a <;> cases h4 : m.read? (a + 1) <;> simp_all
  omega

/-- A fetch at an address that the bound check passes. -/
theorem fetchWord?_exists (m : Memory) (a : Nat) (h : a ≤ 0x0FFE) : ∃ w, fetchWord? m a = some w := by
  cases hf : fetchWord? m a with
  | none => have := (fetchWord?_eq_none m a).1 hf; omega
  | some w => exact ⟨w, rfl⟩

end Sys2Proof.Machine
end

