-- ==== Sys2Proof/Laws/Ops.lean ====
section
/-! SUPPORT. The shared operations on the program counter, the stack, the run state and the timers: one lemma each for all it
can do. -/

namespace Sys2Proof.Machine

@[simp] theorem State.advance_eq (s : State) : s.advance = s.setPc (s.pc + 2#16) := rfl

/-- The executing instruction's address is told back from the advanced program counter, at every value of it. -/
theorem instrAddr_advance (s : State) : s.advance.instrAddr = s.pc := by
  simp [State.instrAddr]

/-- A skip is the only change of `skipIf`. -/
theorem State.skipIf_eq (c : Bool) (s : State) : s.skipIf c = s.setPc (if c then s.pc + 2#16 else s.pc) := by
  cases c <;> rfl

/-- What a push can do (R122). -/
theorem State.push?_cases (s : State) (ra : Word) :
    (s.sp.val = 12 ∧ s.push? ra = none) ∨
    ∃ (h : s.sp.val < 12), s.push? ra = some (s.setStack (s.stack.set s.sp.val ra h) ⟨s.sp.val + 1, by omega⟩) := by
  have hlt := s.sp.isLt
  by_cases h : s.sp.val < 12
  · right; exact ⟨h, by simp [State.push?, h]⟩
  · left; exact ⟨by omega, by simp [State.push?, h]⟩

/-- What a pop can do (R120). -/
theorem State.pop?_cases (s : State) :
    (s.sp.val = 0 ∧ s.pop? = none) ∨
    ∃ (h : s.sp.val - 1 < 12), s.sp.val ≠ 0 ∧
      s.pop? = some (s.stack[s.sp.val - 1], s.setStack s.stack ⟨s.sp.val - 1, by omega⟩) := by
  have hlt := s.sp.isLt
  by_cases h : s.sp.val = 0
  · left; exact ⟨h, by simp [State.pop?, h]⟩
  · right; exact ⟨by omega, h, by simp [State.pop?, h]⟩

/-- Taking a fault changes `pc` and `run`, and nothing else (R201). -/
theorem State.raiseFault_eq (k : FaultKind) (s : State) :
    s.raiseFault k = { s with pc := faultPc k s, run := .paused } := rfl

/-- What the host's resume can do (R207). -/
theorem State.resume_cases (s : State) :
    (s.run = .paused ∧ s.resume = s.setRun .running) ∨ (s.run ≠ .paused ∧ s.resume = s) := by
  unfold State.resume; by_cases h : s.run = .paused <;> simp [h]

/-- What the host's pause can do (R208). -/
theorem State.pause_cases (s : State) :
    (s.run = .running ∧ s.pause = s.setRun .paused) ∨ (s.run ≠ .running ∧ s.pause = s) := by
  unfold State.pause; by_cases h : s.run = .running <;> simp [h]

/-- A timer at zero stays there, whatever the draw. -/
@[simp] theorem countDown_zero (tick : Bool) : countDown tick 0#8 = 0#8 := by simp [countDown]

@[simp] theorem countDown_false (t : Byte) : countDown false t = t := by simp [countDown]

/-- A taken tick takes 1 from a timer that is not zero (R214). -/
theorem countDown_true_toNat (t : Byte) : (countDown true t).toNat = t.toNat - 1 := by
  unfold countDown
  split_ifs with h h2
  · simp [h]
  · have : t.toNat ≠ 0 := fun h0 => h (by simpa using congrArg (BitVec.ofNat 8) h0)
    have := t.isLt
    rw [BitVec.toNat_sub]
    simp
    omega
  · exact absurd rfl h2

/-- The end of an iteration changes the timers at most. -/
theorem endIteration_eq (tick : Bool) (s : State) :
    ∃ dt st, endIteration tick s = s.setTimers dt st ∧ (s.dt = 0#8 → dt = 0#8) ∧ (s.st = 0#8 → st = 0#8) := by
  have same : s = s.setTimers s.dt s.st := rfl
  unfold endIteration State.tickTimers
  cases s.run with
  | running =>
    split_ifs
    · exact ⟨_, _, rfl, by intro h; simp [h], by intro h; simp [h]⟩
    · exact ⟨s.dt, s.st, same, id, id⟩
  | paused => exact ⟨s.dt, s.st, same, id, id⟩
  | quit => exact ⟨s.dt, s.st, same, id, id⟩

end Sys2Proof.Machine
end

