-- ==== Sys2Proof/Laws/Exec.lean ====
section
/-! SUPPORT. What an instruction, an iteration and a step can do, said once: later proofs split on these instead of unfolding
`exec` and `step`. -/

namespace Sys2Proof.Machine

/-- What RET can do (R120). -/
theorem execRet_cases (x : Nibble) (s : State) :
    (s.sp.val = 0 ∧ exec (.ret x) s = .next (s.raiseFault .stackUnderflow)) ∨
    ∃ (h : s.sp.val - 1 < 12), s.sp.val ≠ 0 ∧
      exec (.ret x) s = .next ((s.setStack s.stack ⟨s.sp.val - 1, by omega⟩).setPc s.stack[s.sp.val - 1]) := by
  rcases s.pop?_cases with ⟨h0, hp⟩ | ⟨h1, h0, hp⟩
  · left; exact ⟨h0, by simp only [exec, execRet, hp]⟩
  · right; exact ⟨h1, h0, by simp only [exec, execRet, hp]⟩

/-- What CALL can do (R122). -/
theorem execCall_cases (nnn : Addr12) (s : State) :
    (s.sp.val = 12 ∧ exec (.call nnn) s = .next (s.raiseFault .stackOverflow)) ∨
    ∃ (h : s.sp.val < 12), exec (.call nnn) s =
      .next ((s.setStack (s.stack.set s.sp.val s.pc h) ⟨s.sp.val + 1, by omega⟩).setPc (zextAddr nnn)) := by
  rcases s.push?_cases s.pc with ⟨h0, hp⟩ | ⟨h1, hp⟩
  · left; exact ⟨h0, by simp only [exec, execCall, hp]⟩
  · right; exact ⟨h1, by simp only [exec, execCall, hp]⟩

/-- What an instruction can do to the state, over all instructions: its outcome is a next state, got by one update of the fields
its rule writes. -/
theorem exec_cases (i : Instr) (s : State) :
    (∃ a, exec i s = .next (s.setPc a)) ∨
    (∃ x b, (i = .ldImm x b ∨ i = .addImm x (b - s.readV x)) ∧ exec i s = .next (s.writeV x b)) ∨
    (∃ nnn, i = .ldI nnn ∧ exec i s = .next (s.setI (zextAddr nnn))) ∨
    (∃ x, i = .cls x ∧ exec i s = .next (s.setFb blankScreen)) ∨
    (∃ x y n fb hit, i = .drw x y n ∧ exec i s = .next ((s.setFb fb).setCollision hit)) ∨
    (∃ x, i = .ret x ∧ s.sp.val = 0 ∧ exec i s = .next (s.raiseFault .stackUnderflow)) ∨
    (∃ nnn, i = .call nnn ∧ s.sp.val = 12 ∧ exec i s = .next (s.raiseFault .stackOverflow)) ∨
    (∃ x, ∃ (h : s.sp.val - 1 < 12), i = .ret x ∧ s.sp.val ≠ 0 ∧
      exec i s = .next ((s.setStack s.stack ⟨s.sp.val - 1, by omega⟩).setPc s.stack[s.sp.val - 1])) ∨
    (∃ nnn, ∃ (h : s.sp.val < 12), i = .call nnn ∧
      exec i s = .next ((s.setStack (s.stack.set s.sp.val s.pc h) ⟨s.sp.val + 1, by omega⟩).setPc (zextAddr nnn))) := by
  cases i with
  | cls x => exact .inr (.inr (.inr (.inl ⟨x, rfl, rfl⟩)))
  | ret x =>
    rcases execRet_cases x s with ⟨h0, h⟩ | ⟨h1, h0, h⟩
    · exact .inr (.inr (.inr (.inr (.inr (.inl ⟨x, rfl, h0, h⟩)))))
    · exact .inr (.inr (.inr (.inr (.inr (.inr (.inr (.inl ⟨x, h1, rfl, h0, h⟩)))))))
  | call nnn =>
    rcases execCall_cases nnn s with ⟨h0, h⟩ | ⟨h1, h⟩
    · exact .inr (.inr (.inr (.inr (.inr (.inr (.inl ⟨nnn, rfl, h0, h⟩))))))
    · exact .inr (.inr (.inr (.inr (.inr (.inr (.inr (.inr ⟨nnn, h1, rfl, h⟩)))))))
  | ldImm x nn => exact .inr (.inl ⟨x, nn, .inl rfl, rfl⟩)
  | addImm x nn =>
    refine .inr (.inl ⟨x, s.readV x + nn, .inr ?_, rfl⟩)
    congr 1
    rw [BitVec.add_comm, BitVec.add_sub_cancel]
  | ldI nnn => exact .inr (.inr (.inl ⟨nnn, rfl, rfl⟩))
  | drw x y n => exact .inr (.inr (.inr (.inr (.inl ⟨x, y, n, _, _, rfl, rfl⟩))))
  | jp nnn => exact .inl ⟨_, rfl⟩
  | seImm x nn => exact .inl ⟨_, congrArg Host.Outcome.next (State.skipIf_eq _ s)⟩
  | sneImm x nn => exact .inl ⟨_, congrArg Host.Outcome.next (State.skipIf_eq _ s)⟩
  | seReg x y n => exact .inl ⟨_, congrArg Host.Outcome.next (State.skipIf_eq _ s)⟩
  | sneReg x y n => exact .inl ⟨_, congrArg Host.Outcome.next (State.skipIf_eq _ s)⟩
  | nop0nnn nnn => exact .inl ⟨s.pc, rfl⟩
  | nop8xyn x y n => exact .inl ⟨s.pc, rfl⟩
  | nopBnnn nnn => exact .inl ⟨s.pc, rfl⟩
  | nopCxnn x nn => exact .inl ⟨s.pc, rfl⟩
  | nopExnn x nn => exact .inl ⟨s.pc, rfl⟩
  | nopFxnn x nn => exact .inl ⟨s.pc, rfl⟩

/-- What an iteration can do: the fault of the bound check, or the decoded instruction and the end of the iteration. -/
theorem iteration_cases (tick : Bool) (s : State) :
    (fetchWord? s.mem s.pc.toNat = none ∧ iteration tick s = .next (s.raiseFault .pcOutOfBounds)) ∨
    ∃ w t, fetchWord? s.mem s.pc.toNat = some w ∧ exec (decode w) s.advance = .next t ∧
      iteration tick s = .next (endIteration tick t) := by
  cases hf : fetchWord? s.mem s.pc.toNat with
  | none => exact .inl ⟨rfl, by simp only [iteration, hf]⟩
  | some w =>
    obtain ⟨t, ht⟩ : ∃ t, exec (decode w) s.advance = .next t := by
      rcases exec_cases (decode w) s.advance with ⟨_, h⟩ | ⟨_, _, _, h⟩ | ⟨_, _, h⟩ | ⟨_, _, h⟩ | ⟨_, _, _, _, _, _, h⟩ |
        ⟨_, _, _, h⟩ | ⟨_, _, _, h⟩ | ⟨_, _, _, _, h⟩ | ⟨_, _, _, h⟩ <;> exact ⟨_, h⟩
    exact .inr ⟨w, t, rfl, ht, by simp only [iteration, hf, ht]⟩

/-- The state as the next move finds it: that move taken off the schedule. -/
def State.takeMove (s : State) : State := s.setMoves s.moves.tail

/-- What a step can do: stop in QUIT, idle in PAUSED, an iteration in RUNNING, or a host event. -/
theorem step_cases (s : State) :
    (s.run = .quit ∧ step s = .fault .machineQuit) ∨
    (∃ e rest, s.moves = .host e :: rest ∧ s.run ≠ .quit ∧ step s = .next (applyEvent e (s.setMoves rest))) ∨
    (CoreMovesNext s ∧ s.run = .paused ∧ step s = .next s.takeMove) ∨
    (CoreMovesNext s ∧ s.run = .running ∧ step s = iteration (Config.tickDraw s.draws) s.takeMove.countDraw) := by
  cases hm : s.moves with
  | nil =>
    have hc : CoreMovesNext s := by intro e rest h; rw [hm] at h; cases h
    have hs : s.takeMove = s := by simp only [State.takeMove, State.setMoves, hm, List.tail]; rw [← hm]
    rw [hs]
    cases hr : s.run with
    | running => exact .inr (.inr (.inr ⟨hc, rfl, by simp only [step, nextMove, hm, loopPass, hr]⟩))
    | paused => exact .inr (.inr (.inl ⟨hc, rfl, by simp only [step, nextMove, hm, loopPass, hr]⟩))
    | quit => exact .inl ⟨rfl, by simp only [step, nextMove, hm, loopPass, hr]⟩
  | cons m rest =>
    cases m with
    | host e =>
      cases hr : s.run with
      | running => exact .inr (.inl ⟨e, rest, rfl, by simp, by simp only [step, nextMove, hm, hostEvent, State.setMoves_run, hr]⟩)
      | paused => exact .inr (.inl ⟨e, rest, rfl, by simp, by simp only [step, nextMove, hm, hostEvent, State.setMoves_run, hr]⟩)
      | quit => exact .inl ⟨rfl, by simp only [step, nextMove, hm, hostEvent, State.setMoves_run, hr]⟩
    | iterate =>
      have hc : CoreMovesNext s := by intro e rest h; rw [hm] at h; cases h
      have hs : s.takeMove = s.setMoves rest := by simp only [State.takeMove, hm, List.tail]
      rw [hs]
      cases hr : s.run with
      | running =>
        exact .inr (.inr (.inr ⟨hc, rfl, by simp only [step, nextMove, hm, loopPass, State.setMoves_run, State.setMoves_draws, hr]⟩))
      | paused => exact .inr (.inr (.inl ⟨hc, rfl, by simp only [step, nextMove, hm, loopPass, State.setMoves_run, hr]⟩))
      | quit => exact .inl ⟨rfl, by simp only [step, nextMove, hm, loopPass, State.setMoves_run, hr]⟩

/-- What an event of the host can do to the state (R206 to R209): the keypad or the run state at most. -/
theorem applyEvent_eq (e : HostEvent) (s : State) :
    ∃ key run, applyEvent e s = { s with key := key, run := run } := by
  cases e with
  | key k p => exact ⟨_, s.run, rfl⟩
  | pause =>
    rcases s.pause_cases with ⟨_, h⟩ | ⟨_, h⟩
    · exact ⟨s.key, .paused, by simp only [applyEvent, h]; rfl⟩
    · exact ⟨s.key, s.run, by simp only [applyEvent, h]⟩
  | resume =>
    rcases s.resume_cases with ⟨_, h⟩ | ⟨_, h⟩
    · exact ⟨s.key, .running, by simp only [applyEvent, h]; rfl⟩
    · exact ⟨s.key, s.run, by simp only [applyEvent, h]⟩
  | quit => exact ⟨s.key, .quit, rfl⟩

/-- The current instruction, when there is one, is what the fetch decodes. -/
theorem currentInstr?_eq_some (s : State) (i : Instr) :
    currentInstr? s = some i ↔
      CoreMovesNext s ∧ s.run = .running ∧ ∃ w, fetchWord? s.mem s.pc.toNat = some w ∧ decode w = i := by
  unfold currentInstr? CoreMovesNext
  rcases hm : s.moves with _ | ⟨_ | _, rest⟩ <;> cases hr : s.run <;> simp

/-- No instruction writes a timer, the keypad or the configuration (R46, R51, R175, R230). -/
theorem exec_devices {i : Instr} {s t : State} (h : exec i s = .next t) : DevicesKept s t := by
  rcases exec_cases i s with ⟨_, e⟩ | ⟨_, _, _, e⟩ | ⟨_, _, e⟩ | ⟨_, _, e⟩ | ⟨_, _, _, _, _, _, e⟩ | ⟨_, _, _, e⟩ | ⟨_, _, _, e⟩ |
    ⟨_, _, _, _, e⟩ | ⟨_, _, _, e⟩ <;> rw [h] at e <;> cases e <;> exact ⟨rfl, rfl, rfl, rfl⟩

/-- What changed in a step that answered a next state: the keypad, the run state and the schedule (a host event or a PAUSED
pass), or `run = PAUSED` by the bound check, or one instruction and then the timers. -/
theorem step_next_cases {s t : State} (h : step s = .next t) :
    (∃ key run moves, t = { s with key := key, run := run, moves := moves } ∧
      (key ≠ s.key → ∃ k p rest, s.moves = .host (.key k p) :: rest)) ∨
    (CoreMovesNext s ∧ s.run = .running ∧
      ((∃ moves draws, t = { s with run := .paused, moves := moves, draws := draws }) ∨
       ∃ w u dt st, currentInstr? s = some (decode w) ∧ s.pc.toNat ≤ 0xFFE ∧
        exec (decode w) s.takeMove.countDraw.advance = .next u ∧ t = u.setTimers dt st ∧
        (s.dt = 0#8 → dt = 0#8) ∧ (s.st = 0#8 → st = 0#8) ∧ (Config.tickDraw s.draws = false → dt = s.dt ∧ st = s.st))) := by
  rcases step_cases s with ⟨_, hs⟩ | ⟨e, rest, hm, _, hs⟩ | ⟨_, _, hs⟩ | ⟨hc, hr, hs⟩ <;> rw [hs] at h
  · cases h
  · cases h
    obtain ⟨key, run, he⟩ := applyEvent_eq e (s.setMoves rest)
    refine .inl ⟨key, run, rest, he, fun hk => ?_⟩
    have hkey : (applyEvent e (s.setMoves rest)).key = key := congrArg State.key he
    cases e with
    | key k p => exact ⟨k, p, rest, hm⟩
    | pause => rcases (s.setMoves rest).pause_cases with ⟨_, h2⟩ | ⟨_, h2⟩ <;> rw [applyEvent, h2] at hkey <;> exact absurd hkey.symm hk
    | resume => rcases (s.setMoves rest).resume_cases with ⟨_, h2⟩ | ⟨_, h2⟩ <;> rw [applyEvent, h2] at hkey <;> exact absurd hkey.symm hk
    | quit => exact absurd hkey.symm hk
  · cases h
    exact .inl ⟨s.key, s.run, s.moves.tail, rfl, fun hk => absurd rfl hk⟩
  · refine .inr ⟨hc, hr, ?_⟩
    rcases iteration_cases (Config.tickDraw s.draws) s.takeMove.countDraw with ⟨_, hi⟩ | ⟨w, u, hf, he, hi⟩ <;> rw [hi] at h <;> cases h
    · exact .inl ⟨_, _, rfl⟩
    · obtain ⟨hd, hst, _, _⟩ := exec_devices he
      have hb : s.pc.toNat ≤ 0xFFE := by
        by_contra hn
        have hf' : fetchWord? s.mem s.pc.toNat = some w := hf
        rw [(fetchWord?_eq_none s.mem s.pc.toNat).2 (by omega)] at hf'
        cases hf'
      obtain ⟨dt, st, e1, e2, e3⟩ := endIteration_eq (Config.tickDraw s.draws) u
      refine .inr ⟨w, u, dt, st, (currentInstr?_eq_some _ _).2 ⟨hc, hr, w, hf, rfl⟩, hb, he, e1, fun h0 => e2 (hd.trans h0),
        fun h0 => e3 (hst.trans h0), fun ht => ?_⟩
      have hu : endIteration false u = u := by
        unfold endIteration State.tickTimers
        cases u.run <;> cases Config.timersWired <;> simp [State.setTimers]
      rw [ht, hu] at e1
      exact ⟨(congrArg State.dt e1).symm.trans hd, (congrArg State.st e1).symm.trans hst⟩

end Sys2Proof.Machine
end

