-- ==== Sys2Proof/Laws/PerInstr.lean ====
section
/-! SUPPORT. Statements about every instruction, made one constructor at a time. Family RoundTrip: a well-formed instruction is
decoded from its own word, with every operand at every value (R88, R89, R93). -/

namespace Sys2Proof.Laws.RoundTrip

/-- Decoding the word of a well-formed instruction gives that instruction. -/
def Statement (i : Instr) : Prop := i.wf = true → decode (encode i) = i

theorem cls (x : Nibble) : Statement (.cls x) := by
  intro _; simp [decode, encode, decodeClass0]

theorem ret (x : Nibble) : Statement (.ret x) := by
  intro _; simp [decode, encode, decodeClass0]

theorem nop0nnn (nnn : Addr12) : Statement (.nop0nnn nnn) := by
  intro h
  simp only [Instr.wf, Bool.and_eq_true, bne_iff_ne] at h
  simp [decode, encode, decodeClass0, h.1, h.2]

theorem jp (nnn : Addr12) : Statement (.jp nnn) := by
  intro _; simp [decode, encode]

theorem call (nnn : Addr12) : Statement (.call nnn) := by
  intro _; simp [decode, encode]

theorem seImm (x : RegIx) (nn : Byte) : Statement (.seImm x nn) := by
  intro _; simp [decode, encode]

theorem sneImm (x : RegIx) (nn : Byte) : Statement (.sneImm x nn) := by
  intro _; simp [decode, encode]

theorem seReg (x y : RegIx) (n : Nibble) : Statement (.seReg x y n) := by
  intro _; simp [decode, encode]

theorem ldImm (x : RegIx) (nn : Byte) : Statement (.ldImm x nn) := by
  intro _; simp [decode, encode]

theorem addImm (x : RegIx) (nn : Byte) : Statement (.addImm x nn) := by
  intro _; simp [decode, encode]

theorem nop8xyn (x y : RegIx) (n : Nibble) : Statement (.nop8xyn x y n) := by
  intro _; simp [decode, encode]

theorem sneReg (x y : RegIx) (n : Nibble) : Statement (.sneReg x y n) := by
  intro _; simp [decode, encode]

theorem ldI (nnn : Addr12) : Statement (.ldI nnn) := by
  intro _; simp [decode, encode]

theorem nopBnnn (nnn : Addr12) : Statement (.nopBnnn nnn) := by
  intro _; simp [decode, encode]

theorem nopCxnn (x : RegIx) (nn : Byte) : Statement (.nopCxnn x nn) := by
  intro _; simp [decode, encode]

theorem drw (x y : RegIx) (n : Nibble) : Statement (.drw x y n) := by
  intro _; simp [decode, encode]

theorem nopExnn (x : RegIx) (nn : Byte) : Statement (.nopExnn x nn) := by
  intro _; simp [decode, encode]

theorem nopFxnn (x : RegIx) (nn : Byte) : Statement (.nopFxnn x nn) := by
  intro _; simp [decode, encode]

end Sys2Proof.Laws.RoundTrip
end

