-- ==== Sys2Proof/Tests/Slice0.lean ====
section
/-! SUPPORT. Tests: the check of well-formedness, words written out from the opcode map (R88), vectors of 95_test_vectors.md (named by
their ids), and for each statement with hypotheses a witness that meets them. -/

namespace Sys2Proof.Tests

open Sys2Proof.Machine

/-! ### Helpers -/

/-- What `f` reads from the next state, or none where there is no next state. -/
def after {α : Type} (o : Host.Outcome State Fault Refusal) (f : State → α) : Option α :=
  match o with
  | .next t => some (f t)
  | .fault _ => none
  | .refused _ => none

/-- The next state, or the same state where there is none. -/
def nextOf (s : State) : State :=
  match step s with
  | .next t => t
  | .fault _ => s
  | .refused _ => s

/-- A state with one word at an address, about to run it. -/
def atWord (s : State) (a : Word) (w : Nat) : State := (s.setPc a).withFetchWord 16 w

/-- The reset state with one word at an address, about to run it. -/
def resetAt (a : Word) (w : Nat) : State := atWord State.reset a w

/-- The reset state with V0, V1 and a sprite at `I = 0x300`, about to run one word at 0x200. -/
def drawAt (vx vy : Byte) (w : Nat) (sprite : List Byte) : State :=
  atWord ((((State.reset.writeV 0 vx).writeV 1 vy).setI 0x300#16).setMem (State.reset.mem.writeBytes 0x300 sprite)) 0x200#16 w

/-- A state with a stack of `k` entries, all 0x204, about to run one word at 0x300. -/
def stackAt (k : Fin 13) (w : Nat) : State := atWord (State.reset.setStack (Vector.replicate 12 0x204#16) k) 0x300#16 w

/-- A row of the framebuffer: `on` pixels from column `c` on, the others off. -/
def rowOf (c on : Nat) : List Bool := List.replicate c false ++ List.replicate on true ++ List.replicate (64 - c - on) false

/-- A row of the framebuffer as a list. -/
def fbRow (r : Fin 32) (s : State) : List Bool := (s.fb[r.val]).toList

/-! ### Well-formedness (R170) -/

theorem test_wf_refuses_cls_low_byte : (Instr.nop0nnn 0x0E0#12).wf = false := by decide

theorem test_wf_refuses_ret_low_byte : (Instr.nop0nnn 0x3EE#12).wf = false := by decide

theorem test_wf_takes_neighbours : [0x0E1#12, 0x0ED#12, 0x0EF#12, 0xE0E#12].all (fun a => (Instr.nop0nnn a).wf) = true := by decide

/-! ### Decoding: words written out from the patterns of R88 and the fields of R81 -/

theorem test_decode_class0 :
    [0b0000000011100000#16, 0b0000000111100000#16, 0b0000000011101110#16, 0b0000001111101110#16].map decode =
      [.cls 0x0#4, .cls 0x1#4, .ret 0x0#4, .ret 0x3#4] := by decide

theorem test_decode_class0_rest :
    [0b0000000000000000#16, 0b0000000100100011#16, 0b0000000011100001#16].map decode =
      [.nop0nnn 0x000#12, .nop0nnn 0x123#12, .nop0nnn 0x0E1#12] := by decide

theorem test_decode_jumps :
    [0b0001111111111111#16, 0b0010001000000110#16].map decode = [.jp 0xFFF#12, .call 0x206#12] := by decide

theorem test_decode_skips :
    [0b0011000000000111#16, 0b0100000011111111#16, 0b0101000100100111#16, 0b1001000100100000#16].map decode =
      [.seImm 0 0x07#8, .sneImm 0 0xFF#8, .seReg 1 2 0x7#4, .sneReg 1 2 0x0#4] := by decide

theorem test_decode_load_add :
    [0b0110111111111111#16, 0b0111001110000000#16, 0b1010001000001100#16].map decode =
      [.ldImm 15 0xFF#8, .addImm 3 0x80#8, .ldI 0x20C#12] := by decide

theorem test_decode_drw : decode 0b1101000000010101#16 = .drw 0 1 0x5#4 := by decide

theorem test_decode_unimplemented :
    [0b1000000100100100#16, 0b1011001100000000#16, 0b1100001111111111#16, 0b1110000010011110#16, 0b1111000000001010#16].map decode =
      [.nop8xyn 1 2 0x4#4, .nopBnnn 0x300#12, .nopCxnn 3 0xFF#8, .nopExnn 0 0x9E#8, .nopFxnn 0 0x0A#8] := by decide

theorem test_decode_bytes :
    decodeBytes [0xD0#8, 0x15#8, 0x12#8] = .ok (.drw 0 1 0x5#4, [0x12#8]) ∧ decodeBytes [0xD0#8] = .error .truncated := by
  exact ⟨rfl, rfl⟩

theorem test_decode_table_word : decodeTableWord 16 0xA123 = some (.ldI 0x123#12) := by decide

/-! ### The iteration (40_cycle.md) -/

theorem test_CY2_fetch_big_endian :
    after (step (resetAt 0x300#16 0xA123)) (fun t => (t.i, t.pc)) = some (0x123#16, 0x302#16) := by decide

theorem test_CY3_last_word :
    after (step (resetAt 0xFFE#16 0x0000)) (fun t => (t.pc, t.run)) = some (0x1000#16, .running) := by decide

theorem test_CY4_past_the_end :
    after (step (State.reset.setPc 0x1000#16)) (fun t => (t.pc, t.run)) = some (0x1000#16, .paused) := by decide

theorem test_CY5_second_byte_outside :
    after (step (State.reset.setPc 0xFFF#16)) (fun t => (t.pc, t.run)) = some (0xFFF#16, .paused) := by decide

theorem test_CY6_odd_address :
    after (step (resetAt 0x201#16 0x6107)) (fun t => (t.readV 1, t.pc)) = some (0x07#8, 0x203#16) := by decide

/-! ### Control flow (41_control_flow.md) -/

theorem test_CF1_ret :
    after (step (stackAt 1 0x00EE)) (fun t => (t.sp, t.pc, t.stack[0])) = some (0, 0x204#16, 0x204#16) := by decide

theorem test_CF3_ret_underflow : after (step (resetAt 0x200#16 0x03EE)) (fun t => (t.sp, t.pc, t.run)) = some (0, 0x200#16, .paused) := by
  decide

theorem test_CF6_jp_odd : after (step (resetAt 0x200#16 0x1301)) (fun t => t.pc) = some 0x301#16 := by decide

theorem test_CF8_call : after (step (stackAt 11 0x2400)) (fun t => (t.sp, t.pc, t.stack[11], t.stack[10])) =
    some (12, 0x400#16, 0x302#16, 0x204#16) := by decide

theorem test_CF9_call_overflow : after (step (stackAt 12 0x2400)) (fun t => (t.sp, t.pc, t.run, t.stack[11])) =
    some (12, 0x300#16, .paused, 0x204#16) := by decide

theorem test_CF12_se_taken :
    after (step (atWord (State.reset.writeV 0 0x07#8) 0x202#16 0x3007)) (fun t => t.pc) = some 0x206#16 := by decide

theorem test_CF13_se_not_taken :
    after (step (atWord (State.reset.writeV 0 0x06#8) 0x202#16 0x3007)) (fun t => t.pc) = some 0x204#16 := by decide

theorem test_CF14_sne_not_taken :
    after (step (atWord (State.reset.writeV 0 0x07#8) 0x206#16 0x4007)) (fun t => t.pc) = some 0x208#16 := by decide

theorem test_CF15_sne_taken : after (step (resetAt 0x206#16 0x40FF)) (fun t => t.pc) = some 0x20A#16 := by decide

theorem test_CF16_se_reg_taken :
    after (step (atWord ((State.reset.writeV 1 0x33#8).writeV 2 0x33#8) 0x210#16 0x5120)) (fun t => t.pc) = some 0x214#16 := by decide

theorem test_CF17_se_reg_low_nibble :
    after (step (atWord ((State.reset.writeV 1 0x33#8).writeV 2 0x34#8) 0x210#16 0x5127)) (fun t => t.pc) = some 0x212#16 := by decide

theorem test_CF19_sne_reg_taken :
    after (step (atWord ((State.reset.writeV 1 0x33#8).writeV 2 0x34#8) 0x210#16 0x9120)) (fun t => t.pc) = some 0x214#16 := by decide

theorem test_CF20_sne_reg_same : after (step (resetAt 0x210#16 0x9440)) (fun t => t.pc) = some 0x212#16 := by decide

/-! ### Load and add (42_register_load_add.md) -/

theorem test_LA1_ld : after (step (resetAt 0x200#16 0x6005)) (fun t => (t.readV 0, t.readV 1)) = some (0x05#8, 0x00#8) := by decide

theorem test_LA3_add_no_carry :
    after (step (atWord ((State.reset.writeV 0 0xFF#8).writeV 15 0x77#8) 0x200#16 0x7001)) (fun t => (t.readV 0, t.readV 15)) =
      some (0x00#8, 0x77#8) := by decide

theorem test_LA6_add_to_flag : after (step (atWord (State.reset.writeV 15 0xFF#8) 0x200#16 0x7F01)) (fun t => t.readV 15) = some 0x00#8 := by decide

theorem test_LA8_ld_i : after (step (resetAt 0x200#16 0xAFFF)) (fun t => t.i) = some 0x0FFF#16 := by decide

/-! ### Display (43_display.md) -/

theorem test_DR1_cls : after (step (atWord ((nextOf (drawAt 3#8 2#8 0xD011 [0xF0#8])).writeV 15 0x55#8) 0x202#16 0x00E0))
    (fun t => (fbRow 2 t, t.readV 15)) = some (rowOf 0 0, 0x55#8) := by decide

theorem test_DR3_drw : after (step (drawAt 3#8 2#8 0xD011 [0xF0#8])) (fun t => (fbRow 2 t, fbRow 3 t, t.readV 15)) =
    some (rowOf 3 4, rowOf 0 0, 0#8) := by decide

theorem test_DR4_drw_again : after (step (atWord (nextOf (drawAt 3#8 2#8 0xD011 [0xF0#8])) 0x202#16 0xD011))
    (fun t => (fbRow 2 t, t.readV 15)) = some (rowOf 0 0, 1#8) := by decide

/-! ### Unimplemented classes (44_unimplemented.md) -/

theorem test_NO3_not_cls : after (step (resetAt 0x200#16 0x00E1)) (fun t => (t.pc, t.run)) = some (0x202#16, .running) := by decide

theorem test_NO4_class8 :
    after (step (atWord ((State.reset.writeV 1 0xFF#8).writeV 2 0x01#8) 0x200#16 0x8124)) (fun t => (t.readV 1, t.readV 15, t.pc)) =
      some (0xFF#8, 0x00#8, 0x202#16) := by decide

theorem test_NO6_classB :
    after (step (atWord (State.reset.writeV 0 0x04#8) 0x200#16 0xB300)) (fun t => t.pc) = some 0x202#16 := by decide

theorem test_NO7_classC :
    after (step (atWord (State.reset.writeV 3 0x44#8) 0x200#16 0xC3FF)) (fun t => (t.readV 3, t.pc)) = some (0x44#8, 0x202#16) := by decide

theorem test_NO8_classE :
    after (step (atWord ((State.reset.writeV 0 0x05#8).setKey 5 true) 0x200#16 0xE09E)) (fun t => t.pc) = some 0x202#16 := by decide

theorem test_NO11_classF :
    after (step (atWord (State.reset.writeV 0 0x3C#8) 0x200#16 0xF015)) (fun t => (t.dt, t.pc)) = some (0x00#8, 0x202#16) := by decide

/-! ### Host events and construction (60_exceptions.md, 70_reset_and_hazards.md) -/

theorem test_HF5_pause_again : after (hostEvent .pause (State.reset.setRun .paused)) (fun t => t.run) = some .paused := by decide

theorem test_HF8_key : after (hostEvent (.key 5 true) State.reset) (fun t => (t.key[5], t.key[4], t.run)) = some (true, false, .running) := by
  decide

theorem test_RS1_construct : after (construct Config.hostDefault [0x60#8]) (fun t => (t.mem.read? 0x200, t.mem.read? 0x201, t.pc)) =
    some (some 0x60#8, some 0x00#8, 0x200#16) := by decide

theorem test_RS2_empty_rom : construct Config.hostDefault [] = .refused (.romLength 0) := rfl

/-! ### Witnesses: for each statement with hypotheses, states and operands that meet them -/

theorem coreMovesNext_of_nil {s : State} (h : s.moves = []) : CoreMovesNext s := by
  intro e rest hm
  rw [h] at hm
  cases hm

theorem coreMovesNext_resetAt (a : Word) (w : Nat) : CoreMovesNext (resetAt a w) := coreMovesNext_of_nil rfl

theorem witness_DecodeUndoesEncode : [Instr.cls 15#4, .nop0nnn 0xFFF#12, .drw 15 15 15#4].all Instr.wf = true := by decide

theorem witness_Class0DispatchesOnLowByte :
    (Word.opClass 0x0FE0#16 = 0x0#4 ∧ Word.nn 0x0FE0#16 = 0xE0#8) ∧ (Word.opClass 0x0FEE#16 = 0x0#4 ∧ Word.nn 0x0FEE#16 = 0xEE#8) ∧
    (Word.opClass 0x00E1#16 = 0x0#4 ∧ Word.nn 0x00E1#16 ≠ 0xE0#8 ∧ Word.nn 0x00E1#16 ≠ 0xEE#8) ∧
    (Word.opClass 0x00E0#16 = 0x0#4 ∧ Word.nn 0x00E0#16 = Word.nn 0x0FE0#16) := by decide

theorem witness_LowNibbleOfClasses5And9Ignored :
    (Word.opClass 0x5FF0#16 = 0x5#4 ∧ Word.opClass 0x5FFF#16 = Word.opClass 0x5FF0#16 ∧ Word.x 0x5FFF#16 = Word.x 0x5FF0#16 ∧
      Word.y 0x5FFF#16 = Word.y 0x5FF0#16) ∧
    (Word.opClass 0x9010#16 = 0x9#4 ∧ Word.opClass 0x9017#16 = Word.opClass 0x9010#16 ∧ Word.x 0x9017#16 = Word.x 0x9010#16 ∧
      Word.y 0x9017#16 = Word.y 0x9010#16) := by decide

theorem witness_ConstructionSucceedsExactly :
    ¬ (1 ≤ ([] : List Byte).length ∧ ([] : List Byte).length ≤ 3584) ∧
    ¬ (1 ≤ (List.replicate 3585 (0#8 : Byte)).length ∧ (List.replicate 3585 (0#8 : Byte)).length ≤ 3584) := by
  rw [List.length_replicate]
  decide

/-- For ConstructedMemoryLayout, ConstructedRegisters, ConstructedScreenKeypadStack and InvariantAtConstruction: the shortest ROM,
and the addresses where the clauses on memory meet. -/
theorem witness_Constructed :
    (∃ s, construct Config.hostDefault [0x60#8] = .next s) ∧ 0 < [0x60#8].length ∧ 79 < 80 ∧
    [0x000, 0x04F, 0x0A0, 0x1FF, 0x201, 0xFFF].all (fun a => decide (a < 4096 ∧ ¬ (0x050 ≤ a ∧ a < 0x0A0) ∧
      ¬ (0x200 ≤ a ∧ a < 0x200 + [0x60#8].length))) = true := by
  exact ⟨⟨_, rfl⟩, by decide, by decide, by decide⟩

theorem witness_Constructed_longest : ∃ s, construct Config.hostDefault (List.replicate 3584 0x60#8) = .next s := by
  refine ⟨_, if_pos ?_⟩
  rw [List.length_replicate]
  decide

theorem witness_BoundCheckFaults :
    (CoreMovesNext (State.reset.setPc 0x0FFF#16) ∧ (State.reset.setPc 0x0FFF#16).run = .running ∧
      0x0FFE < (State.reset.setPc 0x0FFF#16).pc.toNat) ∧
    (CoreMovesNext (State.reset.setPc 0x0FFE#16) ∧ (State.reset.setPc 0x0FFE#16).run = .running ∧
      (State.reset.setPc 0x0FFE#16).pc.toNat ≤ 0x0FFE) :=
  ⟨⟨coreMovesNext_of_nil rfl, rfl, by decide⟩, coreMovesNext_of_nil rfl, rfl, by decide⟩

theorem witness_StepRunsDecodedInstruction :
    CoreMovesNext (resetAt 0xFFE#16 0xA123) ∧ (resetAt 0xFFE#16 0xA123).run = .running ∧
    (resetAt 0xFFE#16 0xA123).mem.read? (resetAt 0xFFE#16 0xA123).pc.toNat = some 0xA1#8 ∧
    (resetAt 0xFFE#16 0xA123).mem.read? ((resetAt 0xFFE#16 0xA123).pc.toNat + 1) = some 0x23#8 ∧
    decodeBytes [0xA1#8, 0x23#8] = .ok (.ldI 0x123#12, []) ∧
    (State.reset.setMoves [.host .quit, .iterate]).moves = .host .quit :: [.iterate] ∧
    (State.reset.setMoves [.host .quit, .iterate]).run ≠ .quit :=
  ⟨coreMovesNext_resetAt _ _, rfl, by decide, by decide, rfl, rfl, by decide⟩

theorem witness_EveryStepGoesOnUnlessQuit : State.reset.run ≠ .quit ∧ (State.reset.setRun .paused).run ≠ .quit := by decide

theorem witness_QuitIsTerminal : (State.reset.setRun .quit).run = .quit := rfl

theorem witness_TickDecrementsTimers : (State.reset.setTimers 0xFF#8 1#8).run = .running := rfl

/-- For the decoding clauses of the statements on single instructions. -/
theorem witness_decoding_clauses :
    0x6F05#16 &&& 0xF000#16 = 0x6000#16 ∧ 0x7F05#16 &&& 0xF000#16 = 0x7000#16 ∧ 0xAFFF#16 &&& 0xF000#16 = 0xA000#16 ∧
    0x1FFF#16 &&& 0xF000#16 = 0x1000#16 ∧ 0x2FFF#16 &&& 0xF000#16 = 0x2000#16 ∧ 0x3F05#16 &&& 0xF000#16 = 0x3000#16 ∧
    0x4F05#16 &&& 0xF000#16 = 0x4000#16 ∧ 0x5FF7#16 &&& 0xF000#16 = 0x5000#16 ∧ 0x9FF7#16 &&& 0xF000#16 = 0x9000#16 ∧
    0xDFFF#16 &&& 0xF000#16 = 0xD000#16 ∧ 0x0FE0#16 &&& 0xF0FF#16 = 0x00E0#16 ∧ 0x0FEE#16 &&& 0xF0FF#16 = 0x00EE#16 := by decide

theorem witness_RetPopsOrUnderflows : (stackAt 1 0x00EE).sp.val ≠ 0 ∧ (stackAt 12 0x00EE).sp.val ≠ 0 ∧ State.reset.sp.val = 0 := by
  decide

theorem witness_CallPushesAndJumps : State.reset.sp.val ≠ 12 ∧ (stackAt 11 0x2400).sp.val ≠ 12 ∧ 10 ≠ (stackAt 11 0x2400).sp.val := by
  decide

theorem witness_CallOverflowPauses : (stackAt 12 0x2400).sp.val = 12 := rfl

theorem witness_ImmediateSkips : (State.reset.writeV 15 0xFF#8).readV 15 = 0xFF#8 ∧ (State.reset.writeV 15 0xFF#8).readV 15 ≠ 0xFE#8 := by
  decide

theorem witness_RegisterSkips :
    State.reset.readV 0 = State.reset.readV 15 ∧ (State.reset.writeV 15 0xFF#8).readV 0 ≠ (State.reset.writeV 15 0xFF#8).readV 15 := by
  decide

theorem witness_SkipsAdvanceByFourOrTwo :
    [(0x3F05, 0x3#4), (0x4F05, 0x4#4), (0x5FF7, 0x5#4), (0x9FF7, 0x9#4)].all (fun p =>
      decide ((resetAt 0xFFE#16 p.1).run = .running) &&
        decide (fetchWord? (resetAt 0xFFE#16 p.1).mem (resetAt 0xFFE#16 p.1).pc.toNat = some (BitVec.ofNat 16 p.1)) &&
        decide (Word.opClass (BitVec.ofNat 16 p.1) = p.2)) = true := by decide

theorem witness_NestingDepthIsTwelve :
    State.reset.run = .running ∧ State.reset.sp.val + (List.replicate 12 0x200#12).length ≤ 12 ∧
    after (callAll (List.replicate 12 0x200#12) State.reset) (fun t => t.sp.val) = some 12 := by decide

/-- Program P2 of 95_test_vectors.md: CALL 0x206 at 0x200, and at 0x206 the words 6242 and 00EE. -/
def callProgram : State :=
  State.reset.setMem ((State.reset.mem.writeBytes 0x200 [0x22#8, 0x06#8]).writeBytes 0x206 [0x62#8, 0x42#8, 0x00#8, 0xEE#8])

theorem witness_MatchedCallReturnsAfterIt :
    RunsCall callProgram (nextOf callProgram) ∧ Matched (nextOf callProgram) (nextOf (nextOf callProgram)) ∧
    RunsRet (nextOf (nextOf callProgram)) (nextOf (nextOf (nextOf callProgram))) := by
  have load : currentInstr? (nextOf callProgram) = some (.ldImm 2 0x42#8) := by decide
  refine ⟨⟨⟨0x206#12, by decide⟩, by decide, rfl⟩, .other _ _ _ rfl ?_ ?_ (.done _), ⟨0x0#4, by decide⟩, by decide, rfl⟩
  · rintro ⟨_, ⟨_, h⟩, _⟩
    rw [load] at h
    cases h
  · rintro ⟨_, ⟨_, h⟩, _⟩
    rw [load] at h
    cases h

/-- DR-16: the covered pixel at the last row and column. -/
theorem witness_SpriteCovers_corner : SpriteCovers (drawAt 60#8 30#8 0xD015 (List.replicate 5 0xFF#8)) 0 1 0x5#4 31 63 :=
  ⟨1, 3, 0xFF#8, by decide, by decide, by decide, by decide, by decide, by decide⟩

/-- DR-3: pixels outside the sprite, the first of them beside it. -/
theorem witness_SpriteCovers_outside : ¬ SpriteCovers (drawAt 3#8 2#8 0xD011 [0xF0#8]) 0 1 0x1#4 3 3 := by
  rintro ⟨row, _, _, h, _, hr, _⟩
  have hy : ((drawAt 3#8 2#8 0xD011 [0xF0#8]).readV 1).toNat % 32 = 2 := by decide
  rw [hy] at hr
  have h' : row < 1 := h
  have hr' : 2 + row = 3 := hr
  omega

/-- DR-4: a covered pixel that is on; and, for the other clause, a screen with none on. -/
theorem witness_DrwXorsSprite_collision :
    (∃ r c, SpriteCovers (atWord (nextOf (drawAt 3#8 2#8 0xD011 [0xF0#8])) 0x202#16 0xD011) 0 1 0x1#4 r c ∧
      pixel (atWord (nextOf (drawAt 3#8 2#8 0xD011 [0xF0#8])) 0x202#16 0xD011).fb r c = true) ∧
    (∀ r c, pixel State.reset.fb r c = false) ∧
    ¬ ∃ r c, SpriteCovers State.reset 0 1 0x1#4 r c ∧ pixel State.reset.fb r c = true := by
  have blank : ∀ r c, pixel State.reset.fb r c = false := by
    intro r c
    simp [pixel, State.reset]
  refine ⟨⟨2, 3, ⟨0, 0, 0xF0#8, by decide, by decide, by decide, by decide, by decide, by decide⟩, by decide⟩, blank, ?_⟩
  rintro ⟨r, c, _, h⟩
  rw [blank] at h
  cases h

theorem witness_SpriteRowXorsAndClips :
    (∃ col, col < 8 ∧ 60 + col = (63 : Fin 64).val ∧ (0x10#8).getLsbD (7 - col) = true) ∧
    ¬ ((31 : Fin 32) = 31 ∧ ∃ col, col < 8 ∧ 60 + col = (59 : Fin 64).val ∧ (0x10#8).getLsbD (7 - col) = true) :=
  ⟨⟨3, by decide, by decide, by decide⟩, by rintro ⟨_, col, _, h, _⟩; simp at h; omega⟩

/-- DR-7, and the same state with another byte in a sprite row below the screen. -/
theorem witness_RowsBelowScreenAreNotRead :
    (∀ row, row < (0x3#4).toNat → ((drawAt 0#8 31#8 0xD013 [0xFF#8]).readV 1).toNat % 32 + row < 32 →
      ((drawAt 0#8 31#8 0xD013 [0xFF#8]).mem.write 0x301 0xFF#8).read? ((drawAt 0#8 31#8 0xD013 [0xFF#8]).i.toNat + row) =
        (drawAt 0#8 31#8 0xD013 [0xFF#8]).mem.read? ((drawAt 0#8 31#8 0xD013 [0xFF#8]).i.toNat + row)) ∧
    (drawAt 0#8 31#8 0xD013 [0xFF#8]).mem.write 0x301 0xFF#8 ≠ (drawAt 0#8 31#8 0xD013 [0xFF#8]).mem ∧
    (30 : Fin 32).val < ((drawAt 0#8 31#8 0xD013 [0xFF#8]).readV 1).toNat % 32 := by decide

/-- DR-3 and DR-11: a first draw that turns a pixel on, and one that turns none on. -/
theorem witness_DrawTwiceRestores :
    (0 : RegIx) ≠ 15 ∧ (1 : RegIx) ≠ 15 ∧
    (pixel (drawAt 3#8 2#8 0xD011 [0xF0#8]).fb 2 3 = false ∧ pixel (nextOf (drawAt 3#8 2#8 0xD011 [0xF0#8])).fb 2 3 = true) ∧
    (nextOf (drawAt 63#8 0#8 0xD011 [0x7F#8])).fb = (drawAt 63#8 0#8 0xD011 [0x7F#8]).fb := by decide

theorem witness_DrawAtCornerClips :
    ((drawAt 60#8 30#8 0xD015 (List.replicate 5 0xFF#8)).readV 0).toNat % 64 = 60 ∧
    ((drawAt 60#8 30#8 0xD015 (List.replicate 5 0xFF#8)).readV 1).toNat % 32 = 30 ∧
    (∀ row, row < 5 → (drawAt 60#8 30#8 0xD015 (List.replicate 5 0xFF#8)).mem.read?
      ((drawAt 60#8 30#8 0xD015 (List.replicate 5 0xFF#8)).i.toNat + row) = some 0xFF#8) ∧
    (drawAt 60#8 30#8 0xD015 (List.replicate 5 0xFF#8)).fb = State.reset.fb := by
  exact ⟨by decide, by decide, by decide, rfl⟩

theorem witness_UnimplementedClassesDoNothing :
    Word.opClass 0x8FFF#16 = 0x8#4 ∧ Word.opClass 0xBFFF#16 = 0xB#4 ∧ Word.opClass 0xCFFF#16 = 0xC#4 ∧
    Word.opClass 0xEFFF#16 = 0xE#4 ∧ Word.opClass 0xFFFF#16 = 0xF#4 := by decide

theorem witness_OtherClass0WordsDoNothing :
    Word.opClass 0x00EF#16 = 0x0#4 ∧ Word.nn 0x00EF#16 ≠ 0xE0#8 ∧ Word.nn 0x00EF#16 ≠ 0xEE#8 := by decide

/-- For FaultOnlyPauses and StepFaultsExactlyWhen: each of the three faults, and none. -/
theorem witness_Faults :
    (CoreMovesNext (State.reset.setPc 0x1000#16) ∧ (State.reset.setPc 0x1000#16).run = .running ∧
      faultRaised? (State.reset.setPc 0x1000#16) = some .pcOutOfBounds) ∧
    (CoreMovesNext (resetAt 0x200#16 0x00EE) ∧ (resetAt 0x200#16 0x00EE).run = .running ∧
      faultRaised? (resetAt 0x200#16 0x00EE) = some .stackUnderflow) ∧
    (CoreMovesNext (stackAt 12 0x2400) ∧ (stackAt 12 0x2400).run = .running ∧
      faultRaised? (stackAt 12 0x2400) = some .stackOverflow) ∧
    (CoreMovesNext (stackAt 11 0x2400) ∧ (stackAt 11 0x2400).run = .running ∧ faultRaised? (stackAt 11 0x2400) = none) :=
  ⟨⟨coreMovesNext_of_nil rfl, rfl, by decide⟩, ⟨coreMovesNext_resetAt _ _, rfl, by decide⟩,
    ⟨coreMovesNext_of_nil rfl, rfl, by decide⟩, coreMovesNext_of_nil rfl, rfl, by decide⟩

/-- The schedule of ResumedFaultRecurs. -/
def resumeSchedule : List Move := [.iterate, .host .resume, .iterate]

theorem witness_ResumedFaultRecurs :
    ((State.reset.setPc 0x1000#16).setMoves resumeSchedule).moves = .iterate :: .host .resume :: .iterate :: [] ∧
    ((State.reset.setPc 0x1000#16).setMoves resumeSchedule).run = .running ∧
    faultRaised? ((State.reset.setPc 0x1000#16).setMoves resumeSchedule) = some .pcOutOfBounds ∧
    (FaultKind.pcOutOfBounds = .stackOverflow → Config.callOverflowRollsBack = true) :=
  ⟨rfl, rfl, by decide, by decide⟩

theorem witness_KeyEventSetsOneKey : State.reset.run ≠ .quit ∧ (14 : Fin 16) ≠ 15 := by decide

theorem witness_QuitIntentQuits : State.reset.run = .running ∧ (State.reset.setRun .paused).run = .paused := by decide

theorem witness_PauseAndResumeIntents : State.reset.run ≠ .quit ∧ (State.reset.setRun .paused).run ≠ .quit := by decide

/-- A fault, a pause, a resume and a quit. -/
theorem witness_RunStateTransitions :
    (step (resetAt 0x200#16 0x00EE) = .next (nextOf (resetAt 0x200#16 0x00EE)) ∧
      (nextOf (resetAt 0x200#16 0x00EE)).run ≠ (resetAt 0x200#16 0x00EE).run) ∧
    (step (State.reset.setMoves [.host .pause]) = .next (nextOf (State.reset.setMoves [.host .pause])) ∧
      (nextOf (State.reset.setMoves [.host .pause])).run = .paused) ∧
    (step ((State.reset.setRun .paused).setMoves [.host .resume]) =
        .next (nextOf ((State.reset.setRun .paused).setMoves [.host .resume])) ∧
      (nextOf ((State.reset.setRun .paused).setMoves [.host .resume])).run = .running) ∧
    (step (State.reset.setMoves [.host .quit]) = .next (nextOf (State.reset.setMoves [.host .quit])) ∧
      (nextOf (State.reset.setMoves [.host .quit])).run = .quit) :=
  ⟨⟨rfl, by decide⟩, ⟨rfl, by decide⟩, ⟨rfl, by decide⟩, rfl, by decide⟩

theorem witness_PausedIsQuiescent : (State.reset.setRun .paused).run = .paused ∧ CoreMovesNext (State.reset.setRun .paused) :=
  ⟨rfl, coreMovesNext_of_nil rfl⟩

theorem witness_TicksPresentFrames : State.reset.run = .running := rfl

/-- For NoStepWritesMemory: the word F055, which stores on other machines. -/
theorem witness_NoStepWritesMemory : step (resetAt 0x200#16 0xF055) = .next (nextOf (resetAt 0x200#16 0xF055)) := rfl

theorem witness_RegisterWriters :
    (step (resetAt 0x200#16 0x6F05) = .next (nextOf (resetAt 0x200#16 0x6F05)) ∧
      (nextOf (resetAt 0x200#16 0x6F05)).readV 15 ≠ (resetAt 0x200#16 0x6F05).readV 15) ∧
    (step (resetAt 0x200#16 0x7005) = .next (nextOf (resetAt 0x200#16 0x7005)) ∧
      (nextOf (resetAt 0x200#16 0x7005)).readV 0 ≠ (resetAt 0x200#16 0x7005).readV 0) :=
  ⟨⟨rfl, by decide⟩, rfl, by decide⟩

theorem witness_IndexAndStackWriters :
    (step (resetAt 0x200#16 0xAFFF) = .next (nextOf (resetAt 0x200#16 0xAFFF)) ∧
      (nextOf (resetAt 0x200#16 0xAFFF)).i ≠ (resetAt 0x200#16 0xAFFF).i) ∧
    (step (stackAt 11 0x2400) = .next (nextOf (stackAt 11 0x2400)) ∧ (nextOf (stackAt 11 0x2400)).sp ≠ (stackAt 11 0x2400).sp ∧
      (nextOf (stackAt 11 0x2400)).stack ≠ (stackAt 11 0x2400).stack) ∧
    (step (stackAt 1 0x00EE) = .next (nextOf (stackAt 1 0x00EE)) ∧ (nextOf (stackAt 1 0x00EE)).sp ≠ (stackAt 1 0x00EE).sp) :=
  ⟨⟨rfl, by decide⟩, ⟨rfl, by decide, by decide⟩, rfl, by decide⟩

theorem witness_ScreenTimerKeypadWriters :
    (step (drawAt 3#8 2#8 0xD011 [0xF0#8]) = .next (nextOf (drawAt 3#8 2#8 0xD011 [0xF0#8])) ∧
      ¬ ScreenKept (drawAt 3#8 2#8 0xD011 [0xF0#8]) (nextOf (drawAt 3#8 2#8 0xD011 [0xF0#8]))) ∧
    (step (State.reset.setMoves [.host (.key 15 true)]) = .next (nextOf (State.reset.setMoves [.host (.key 15 true)])) ∧
      (nextOf (State.reset.setMoves [.host (.key 15 true)])).key ≠ State.reset.key) := by
  refine ⟨⟨rfl, fun h => ?_⟩, rfl, by decide⟩
  have h' := h 2 3
  have h'' : pixel (nextOf (drawAt 3#8 2#8 0xD011 [0xF0#8])).fb 2 3 ≠ pixel (drawAt 3#8 2#8 0xD011 [0xF0#8]).fb 2 3 := by decide
  exact h'' h'

theorem witness_KeypadIsNeverRead :
    CoreMovesNext (resetAt 0x200#16 0xE09E) ∧ step (resetAt 0x200#16 0xE09E) = .next (nextOf (resetAt 0x200#16 0xE09E)) :=
  ⟨coreMovesNext_resetAt _ _, rfl⟩

theorem witness_StepKeepsInvariant :
    Inv (resetAt 0xFFE#16 0x2300) ∧ step (resetAt 0xFFE#16 0x2300) = .next (nextOf (resetAt 0xFFE#16 0x2300)) := by
  refine ⟨⟨by decide, by decide, by decide, rfl, rfl, fun k _ hk => ?_, by decide⟩, rfl⟩
  have h0 : (resetAt 0xFFE#16 0x2300).sp.val = 0 := rfl
  omega

theorem witness_ReachableStatesAreBounded :
    Reachable ((State.reset.setMem (State.reset.mem.writeBytes 0x200 [0x60#8])).setMoves resumeSchedule) :=
  .constructed Config.hostDefault [0x60#8] _ _ rfl

theorem witness_PlacedInstructionRunsNext :
    (State.reset.setPc 0xFFFF#16).mem.wf = true ∧ (Instr.drw 15 15 15#4).wf = true := by decide

/-- Other colours, scale and rate than the defaults, and a step and an event of the machine that has them. -/
def otherConfig : Config.HostConfig := ⟨.black, .other 7, 4, 1000⟩

theorem witness_ConfigurationIsSetOnce :
    construct otherConfig [0x60#8] = .next ((State.reset.setMem (State.reset.mem.writeBytes 0x200 [0x60#8])).setConf otherConfig) ∧
    step (State.reset.setConf otherConfig) = .next (nextOf (State.reset.setConf otherConfig)) ∧
    hostEvent .quit (State.reset.setConf otherConfig) = .next ((State.reset.setConf otherConfig).setRun .quit) :=
  ⟨rfl, rfl, rfl⟩

end Sys2Proof.Tests
end

/-! # The family of the state (10_state.md)

What an instruction does to the state, told as a case list with names; the invariant kept by each operation on the state, hence
by each instruction and each step; and who writes which part of the state. -/

namespace Sys2Proof.Machine

/-! ### What an instruction does -/

/-- The effects of the instructions: `Effect s i t` lists the ways in which `i`, run in `s`, can leave `t`. It refines
`exec_cases` by where `pc` goes. Tied to the model by `effect_of_exec`. -/
inductive Effect (s : State) : Instr → State → Prop
  | idle (i : Instr) : Effect s i s
  | skip (i : Instr) : Effect s i s.skip
  | jump (nnn : Addr12) : Effect s (.jp nnn) (s.setPc (zextAddr nnn))
  | load (x : RegIx) (nn : Byte) : Effect s (.ldImm x nn) (s.writeV x nn)
  | add (x : RegIx) (nn : Byte) : Effect s (.addImm x nn) (s.writeV x (s.readV x + nn))
  | index (nnn : Addr12) : Effect s (.ldI nnn) (s.setI (zextAddr nnn))
  | clear (x : Nibble) : Effect s (.cls x) (s.setFb blankScreen)
  | draw (x y : RegIx) (n : Nibble) (fb : Framebuffer) (hit : Bool) : Effect s (.drw x y n) ((s.setFb fb).setCollision hit)
  | call (nnn : Addr12) (h : s.sp.val < 12) : Effect s (.call nnn)
      ((s.setStack (s.stack.set s.sp.val s.pc h) ⟨s.sp.val + 1, by omega⟩).setPc (zextAddr nnn))
  | ret (x : Nibble) (h : s.sp.val - 1 < 12) (h0 : s.sp.val ≠ 0) : Effect s (.ret x)
      ((s.setStack s.stack ⟨s.sp.val - 1, by omega⟩).setPc s.stack[s.sp.val - 1])
  | overflow (nnn : Addr12) : Effect s (.call nnn) (s.raiseFault .stackOverflow)
  | underflow (x : Nibble) : Effect s (.ret x) (s.raiseFault .stackUnderflow)

/-- A skip instruction skips or idles (R124). -/
theorem Effect.skipIf (s : State) (i : Instr) (c : Bool) : Effect s i (s.skipIf c) := by
  cases c with
  | false => exact .idle i
  | true => exact .skip i

/-- Whatever an instruction does is in the list. -/
theorem effect_of_exec {i : Instr} {s t : State} (h : exec i s = .next t) : Effect s i t := by
  cases i with
  | ret x =>
    rcases execRet_cases x s with ⟨_, e⟩ | ⟨h1, h0, e⟩ <;> rw [e] at h <;> cases h
    · exact .underflow x
    · exact .ret x h1 h0
  | call nnn =>
    rcases execCall_cases nnn s with ⟨_, e⟩ | ⟨h1, e⟩ <;> rw [e] at h <;> cases h
    · exact .overflow nnn
    · exact .call nnn h1
  | cls x => cases h; exact .clear x
  | jp nnn => cases h; exact .jump nnn
  | ldImm x nn => cases h; exact .load x nn
  | addImm x nn => cases h; exact .add x nn
  | ldI nnn => cases h; exact .index nnn
  | drw x y n => cases h; exact .draw x y n _ _
  | seImm x nn => cases h; exact .skipIf s _ _
  | sneImm x nn => cases h; exact .skipIf s _ _
  | seReg x y n => cases h; exact .skipIf s _ _
  | sneReg x y n => cases h; exact .skipIf s _ _
  | nop0nnn nnn => cases h; exact .idle _
  | nop8xyn x y n => cases h; exact .idle _
  | nopBnnn nnn => cases h; exact .idle _
  | nopCxnn x nn => cases h; exact .idle _
  | nopExnn x nn => cases h; exact .idle _
  | nopFxnn x nn => cases h; exact .idle _

/-! ### The invariant, one rule for each operation on the state -/

@[simp] theorem zextAddr_toNat (nnn : Addr12) : (zextAddr nnn).toNat = nnn.toNat := by
  have := nnn.isLt
  rw [zextAddr, BitVec.toNat_setWidth]
  omega

/-- An address operand is an address (R83). -/
theorem zextAddr_le (nnn : Addr12) : (zextAddr nnn).toNat ≤ 0x0FFF := by
  have := nnn.isLt
  rw [zextAddr_toNat]
  omega

namespace Inv

variable {s : State}

/-- The invariant does not speak of the keypad, the run state and the schedule. -/
theorem otherFields (h : Inv s) (key : Vector Bool 16) (run : RunState) (moves : List Move) (draws : Nat) :
    Inv { s with key := key, run := run, moves := moves, draws := draws } :=
  ⟨h.memForm, h.pcBound, h.iBound, h.delayZero, h.soundZero, h.returnBound, h.fontIntact⟩

theorem setPc (h : Inv s) {a : Word} (ha : a.toNat ≤ 0x1002) : Inv (s.setPc a) :=
  ⟨h.memForm, ha, h.iBound, h.delayZero, h.soundZero, h.returnBound, h.fontIntact⟩

theorem setI (h : Inv s) {a : Word} (ha : a.toNat ≤ 0x0FFF) : Inv (s.setI a) :=
  ⟨h.memForm, h.pcBound, ha, h.delayZero, h.soundZero, h.returnBound, h.fontIntact⟩

theorem writeV (h : Inv s) (x : RegIx) (b : Byte) : Inv (s.writeV x b) :=
  ⟨h.memForm, h.pcBound, h.iBound, h.delayZero, h.soundZero, h.returnBound, h.fontIntact⟩

theorem setFb (h : Inv s) (fb : Framebuffer) : Inv (s.setFb fb) :=
  ⟨h.memForm, h.pcBound, h.iBound, h.delayZero, h.soundZero, h.returnBound, h.fontIntact⟩

theorem setTimers (h : Inv s) {dt st : Byte} (hd : dt = 0#8) (hs : st = 0#8) : Inv (s.setTimers dt st) :=
  ⟨h.memForm, h.pcBound, h.iBound, hd, hs, h.returnBound, h.fontIntact⟩

theorem setMem (h : Inv s) {m : Memory} (hw : m.wf = true)
    (hf : ∀ k : Nat, k < 80 → m.read? (Config.fontBase + k) = some (Config.font.getD k 0#8)) : Inv (s.setMem m) :=
  ⟨hw, h.pcBound, h.iBound, h.delayZero, h.soundZero, h.returnBound, hf⟩

theorem setConf (h : Inv s) (conf : Config.HostConfig) : Inv (s.setConf conf) :=
  ⟨h.memForm, h.pcBound, h.iBound, h.delayZero, h.soundZero, h.returnBound, h.fontIntact⟩

theorem setMoves (h : Inv s) (ms : List Move) : Inv (s.setMoves ms) :=
  h.otherFields s.key s.run ms s.draws

/-- Pushing a bounded return address keeps every valid entry bounded (R38). -/
theorem push (h : Inv s) {ra : Word} (hra : ra.toNat ≤ 0x1000) (hlt : s.sp.val < 12) :
    Inv (s.setStack (s.stack.set s.sp.val ra hlt) ⟨s.sp.val + 1, by omega⟩) := by
  refine ⟨h.memForm, h.pcBound, h.iBound, h.delayZero, h.soundZero, fun k hk hsp => ?_, h.fontIntact⟩
  simp only [State.setStack_stack, State.setStack_sp, Vector.getElem_set] at hsp ⊢
  split_ifs with heq
  · exact hra
  · exact h.returnBound k hk (by omega)

/-- Popping leaves fewer valid entries, the same as before. -/
theorem pop (h : Inv s) (hlt : s.sp.val - 1 < 12) : Inv (s.setStack s.stack ⟨s.sp.val - 1, by omega⟩) := by
  refine ⟨h.memForm, h.pcBound, h.iBound, h.delayZero, h.soundZero, fun k hk hsp => ?_, h.fontIntact⟩
  simp only [State.setStack_sp] at hsp
  exact h.returnBound k hk (by omega)

/-- A fault keeps the invariant when the `pc` it leaves is in bounds: it changes nothing else but the run state (R201). -/
theorem raiseFault (h : Inv s) {k : FaultKind} (hk : (faultPc k s).toNat ≤ 0x1002) : Inv (s.raiseFault k) :=
  (h.setPc hk).otherFields s.key .paused s.moves s.draws

end Inv

/-- An instruction keeps the invariant when it runs with `pc = a + 2` for an `a` that passed the bound check (R103, R38). -/
theorem exec_keeps_inv {i : Instr} {s t : State} (hs : Inv s) (hlo : 2 ≤ s.pc.toNat) (hhi : s.pc.toNat ≤ 0x1000)
    (h : exec i s = .next t) : Inv t := by
  have hjump (nnn : Addr12) : (zextAddr nnn).toNat ≤ 0x1002 := (zextAddr_le nnn).trans (by decide)
  have haddr : s.instrAddr.toNat ≤ 0x1002 := by unfold State.instrAddr; bv_omega
  cases effect_of_exec h with
  | idle => exact hs
  | skip => exact hs.setPc (by bv_omega)
  | jump nnn => exact hs.setPc (hjump nnn)
  | load x nn => exact hs.writeV x nn
  | add x nn => exact hs.writeV x _
  | index nnn => exact hs.setI (zextAddr_le nnn)
  | clear => exact hs.setFb _
  | draw x y n fb hit => exact (hs.setFb fb).writeV 15 _
  | call nnn hlt => exact (hs.push hhi hlt).setPc (hjump nnn)
  | ret x hlt h0 => exact (hs.pop hlt).setPc ((hs.returnBound _ hlt (by omega)).trans (by decide))
  | overflow nnn =>
    refine hs.raiseFault ?_
    unfold faultPc
    split_ifs
    · exact haddr
    · exact hs.pcBound
  | underflow x => exact hs.raiseFault haddr

/-- Every step keeps the invariant. -/
theorem step_keeps_inv {s t : State} (hs : Inv s) (h : step s = .next t) : Inv t := by
  rcases step_next_cases h with ⟨key, run, moves, rfl, _⟩ | ⟨_, _, ⟨moves, draws, rfl⟩ | ran⟩
  · exact hs.otherFields key run moves s.draws
  · exact hs.otherFields s.key .paused moves draws
  · obtain ⟨w, u, dt, st, _, hb, he, rfl, hd, hst, _⟩ := ran
    have hpc : s.takeMove.countDraw.advance.pc.toNat = s.pc.toNat + 2 := by
      simp only [State.advance_eq, State.setPc_pc, State.countDraw_pc, State.takeMove, State.setMoves_pc]
      bv_omega
    have hadv : Inv s.takeMove.countDraw.advance :=
      (hs.otherFields s.key s.run s.moves.tail (s.draws + 1)).setPc (a := s.pc + 2#16) (by bv_omega)
    exact (exec_keeps_inv hadv (by omega) (by omega) he).setTimers (hd hs.delayZero) (hst hs.soundZero)

/-! ### Construction and the reachable states -/

/-- What construction answers when it answers a state (R241, R242). -/
theorem construct_eq_next {conf : Config.HostConfig} {rom : List Byte} {s : State} (h : construct conf rom = .next s) :
    rom.length ≤ Config.maxRom ∧
      s = (State.reset.setMem (State.reset.mem.writeBytes Config.progStart rom)).setConf conf := by
  unfold construct at h
  split_ifs at h with hlen
  cases h
  exact ⟨hlen.2, rfl⟩

/-- The invariant at reset, where no entry of the stack is valid and memory lists nothing. -/
theorem inv_reset : Inv State.reset := by
  refine ⟨rfl, by decide, by decide, rfl, rfl, fun k _ hk => absurd hk (Nat.not_lt_zero k), fun k hk => ?_⟩
  rw [← resetByte_font k hk]
  exact Memory.read?_nothingListed _ (by simp only [Config.fontBase, Config.memSize]; omega)

/-- The invariant at construction: the ROM is written above the font table (R241, R68). -/
theorem inv_of_construct {conf : Config.HostConfig} {rom : List Byte} {s : State} (h : construct conf rom = .next s) :
    Inv s := by
  obtain ⟨hlen, rfl⟩ := construct_eq_next h
  refine (inv_reset.setMem (Memory.wf_writeBytes _ _ _ inv_reset.memForm) fun k hk => ?_).setConf conf
  simp only [Config.maxRom] at hlen
  rw [Memory.read?_writeBytes _ _ _ _ inv_reset.memForm (by simp only [Config.progStart, Config.memSize]; omega),
    if_neg (by simp only [Config.fontBase, Config.progStart]; omega)]
  exact inv_reset.fontIntact k hk

/-- Every reachable state meets the invariant. -/
theorem inv_of_reachable {s : State} (h : Reachable s) : Inv s := by
  induction h with
  | constructed conf rom s ms hc => exact (inv_of_construct hc).setMoves ms
  | stepped s t _ hstep ih => exact step_keeps_inv ih hstep

/-! ### Who writes which part of the state -/

section Writers

variable {i : Instr} {s t : State}

/-- An instruction that changes a general register is LD or ADD of it, or DRW for the flag register (R33, R39). -/
theorem exec_register_writers (h : exec i s = .next t) (r : RegIx) (hr : t.readV r ≠ s.readV r) :
    (∃ nn, i = .ldImm r nn ∨ i = .addImm r nn) ∨ (r = 15 ∧ ∃ x y n, i = .drw x y n) := by
  have written {u : State} {x : RegIx} {b : Byte} (hu : (u.writeV x b).readV r ≠ u.readV r) : r = x := by
    by_contra hne
    exact hu (u.readV_writeV_other x r b hne)
  cases effect_of_exec h with
  | load x nn => exact .inl ⟨nn, .inl (by rw [written hr])⟩
  | add x nn => exact .inl ⟨nn, .inr (by rw [written hr])⟩
  | draw x y n fb hit => exact .inr ⟨written (u := s.setFb fb) hr, x, y, n, rfl⟩
  | idle | skip | jump | index | clear | call | ret | overflow | underflow => exact absurd rfl hr

/-- Only LD I writes `I` (R40). -/
theorem exec_index_writer (h : exec i s = .next t) (hi : t.i ≠ s.i) : ∃ nnn, i = .ldI nnn ∧ t.i = zextAddr nnn := by
  cases effect_of_exec h with
  | index nnn => exact ⟨nnn, rfl, rfl⟩
  | idle | skip | jump | load | add | clear | draw | call | ret | overflow | underflow => exact absurd rfl hi

/-- Only CALL and RET move the stack's cursor, by one (R42, R43). -/
theorem exec_sp_writers (h : exec i s = .next t) (hsp : t.sp ≠ s.sp) :
    (∃ nnn, i = .call nnn ∧ t.sp.val = s.sp.val + 1) ∨ (∃ x, i = .ret x ∧ t.sp.val + 1 = s.sp.val) := by
  cases effect_of_exec h with
  | call nnn => exact .inl ⟨nnn, rfl, rfl⟩
  | ret x _ h0 => exact .inr ⟨x, rfl, Nat.sub_add_cancel (Nat.pos_of_ne_zero h0)⟩
  | idle | skip | jump | load | add | index | clear | draw | overflow | underflow => exact absurd rfl hsp

/-- Only CALL writes an entry of the stack; RET clears none (R42). -/
theorem exec_stack_writer (h : exec i s = .next t) (hst : t.stack ≠ s.stack) : ∃ nnn, i = .call nnn := by
  cases effect_of_exec h with
  | call nnn => exact ⟨nnn, rfl⟩
  | idle | skip | jump | load | add | index | clear | draw | ret | overflow | underflow => exact absurd rfl hst

/-- Only CLS and DRW write the framebuffer (R49). -/
theorem exec_screen_writers (h : exec i s = .next t) (hfb : t.fb ≠ s.fb) :
    (∃ x, i = .cls x) ∨ ∃ x y n, i = .drw x y n := by
  cases effect_of_exec h with
  | clear x => exact .inl ⟨x, rfl⟩
  | draw x y n => exact .inr ⟨x, y, n, rfl⟩
  | idle | skip | jump | load | add | index | call | ret | overflow | underflow => exact absurd rfl hfb

/-- What instructions alone write, apart from `pc`, is kept: the registers, `I`, the stack and the framebuffer. -/
structure DataKept (s t : State) : Prop where
  v : t.v = s.v
  i : t.i = s.i
  stack : t.stack = s.stack
  sp : t.sp = s.sp
  fb : t.fb = s.fb

/-- A step changes the registers, `I`, the stack and the framebuffer by running the current instruction, or not at all. -/
theorem step_dataKept_or_ran (h : step s = .next t) :
    DataKept s t ∨ ∃ i a u, currentInstr? s = some i ∧ DataKept s a ∧ exec i a = .next u ∧ DataKept u t := by
  rcases step_next_cases h with ⟨_, _, _, rfl, _⟩ | ⟨_, _, ⟨_, _, rfl⟩ | ran⟩
  · exact .inl ⟨rfl, rfl, rfl, rfl, rfl⟩
  · exact .inl ⟨rfl, rfl, rfl, rfl, rfl⟩
  · obtain ⟨w, u, dt, st, hc, _, he, rfl, _⟩ := ran
    exact .inr ⟨_, s.takeMove.countDraw.advance, u, hc, ⟨rfl, rfl, rfl, rfl, rfl⟩, he, ⟨rfl, rfl, rfl, rfl, rfl⟩⟩

/-- The timers are kept but for an iteration whose draw takes a tick (R46, C4). -/
theorem step_timers (h : step s = .next t) :
    (t.dt = s.dt ∧ t.st = s.st) ∨ (CoreMovesNext s ∧ s.run = .running ∧ Config.tickDraw s.draws = true) := by
  rcases step_next_cases h with ⟨_, _, _, rfl, _⟩ | ⟨hc, hr, ⟨_, _, rfl⟩ | ran⟩
  · exact .inl ⟨rfl, rfl⟩
  · exact .inl ⟨rfl, rfl⟩
  · obtain ⟨_, _, _, _, _, _, _, rfl, _, _, hkept⟩ := ran
    cases htick : Config.tickDraw s.draws with
    | false => exact .inl (hkept htick)
    | true => exact .inr ⟨hc, hr, rfl⟩

/-- A step that changes the keypad is a key event of the host (R51). -/
theorem step_keypad_writer (h : step s = .next t) (hk : t.key ≠ s.key) :
    ∃ k pressed rest, s.moves = .host (.key k pressed) :: rest := by
  rcases step_next_cases h with ⟨_, _, _, rfl, hkey⟩ | ⟨_, _, ⟨_, _, rfl⟩ | ran⟩
  · exact hkey hk
  · exact absurd rfl hk
  · obtain ⟨_, _, _, _, _, _, he, rfl, _⟩ := ran
    obtain ⟨_, _, hkept, _⟩ := exec_devices he
    exact absurd hkept hk

end Writers

/-! ### The obligations -/

/-- Settles O57: each operation of the state keeps the invariant, so each instruction and each step does. -/
theorem stepKeepsInvariant : Obligations.StepKeepsInvariant :=
  fun _ _ => step_keeps_inv

/-- Settles O10: construction leaves everything but memory and the configuration as at reset. -/
theorem constructedRegisters : Obligations.ConstructedRegisters := by
  intro conf rom s h
  obtain ⟨_, rfl⟩ := construct_eq_next h
  exact ⟨fun r => Vector.getElem_replicate r.isLt, rfl, rfl, rfl, rfl, rfl, rfl⟩

/-- Settles O52: a register changes only by the instruction run, and three of the instructions write one. -/
theorem registerWriters : Obligations.RegisterWriters := by
  intro s t r h hr
  rcases step_dataKept_or_ran h with kept | ⟨i, a, u, hc, before, he, after⟩
  · exact absurd (State.readV_congr s t kept.v r) hr
  · rw [State.readV_congr u t after.v, ← State.readV_congr s a before.v] at hr
    exact ⟨i, hc, exec_register_writers he r hr⟩

/-- Settles O53: `I` and the stack change only by the instruction run, and each has its own writers. -/
theorem indexAndStackWriters : Obligations.IndexAndStackWriters := by
  intro s t h
  rcases step_dataKept_or_ran h with kept | ⟨i, a, u, hc, before, he, after⟩
  · exact ⟨absurd kept.i, absurd kept.sp, absurd kept.stack⟩
  · rw [after.i, after.sp, after.stack, ← before.i, ← before.sp, ← before.stack]
    refine ⟨fun hi => ?_, fun hsp => ?_, fun hst => ?_⟩
    · obtain ⟨nnn, rfl, hnnn⟩ := exec_index_writer he hi
      exact ⟨nnn, hc, by rw [hnnn, zextAddr_toNat]⟩
    · rcases exec_sp_writers he hsp with ⟨nnn, rfl, hval⟩ | ⟨x, rfl, hval⟩
      · exact .inl ⟨nnn, hc, hval⟩
      · exact .inr ⟨x, hc, hval⟩
    · obtain ⟨nnn, rfl⟩ := exec_stack_writer he hst
      exact ⟨nnn, hc⟩

/-- Settles O54: the screen has its instructions, the timers the tick, the keypad the host's key events. -/
theorem screenTimerKeypadWriters : Obligations.ScreenTimerKeypadWriters := by
  intro s t h
  refine ⟨fun hscreen => ?_, step_timers h, step_keypad_writer h⟩
  have hfb : t.fb ≠ s.fb := fun heq => hscreen fun r c => by rw [heq]
  rcases step_dataKept_or_ran h with kept | ⟨i, a, u, hc, before, he, after⟩
  · exact absurd kept.fb hfb
  · rw [after.fb, ← before.fb] at hfb
    exact ⟨i, hc, exec_screen_writers he hfb⟩

/-- Settles O58: every reachable state meets the invariant, which bounds `pc`, so the fetch-advance does not wrap. -/
theorem reachableStatesAreBounded : Obligations.ReachableStatesAreBounded := by
  intro s h
  obtain ⟨_, hpc, hi, hdt, hst, _, hfont⟩ := inv_of_reachable h
  have htone : audioFlag s = false := by simp [audioFlag, hst]
  exact ⟨hpc, by bv_omega, hi, hdt, hst, htone, hfont⟩

end Sys2Proof.Machine

/-! # The family of memory (20_memory.md)

What a fetch makes of two bytes, and that an instruction, hence a step, leaves memory as it is. -/

namespace Sys2Proof.Machine

/-- The number of a word read from two bytes: the first is the high byte (R60). -/
theorem wordOfBytes_toNat (hi lo : Byte) : (wordOfBytes hi lo).toNat = hi.toNat * 256 + lo.toNat := by
  rw [wordOfBytes, BitVec.toNat_append, ← Nat.shiftLeft_add_eq_or_of_lt lo.isLt, Nat.shiftLeft_eq]

/-- No instruction writes memory (R66). -/
theorem exec_mem {i : Instr} {s t : State} (h : exec i s = .next t) : t.mem = s.mem := by
  cases effect_of_exec h with
  | idle | skip | jump | load | add | index | clear | draw | call | ret | overflow | underflow => rfl

/-- No step writes memory: a host event writes the keypad and the run state, an iteration runs one instruction (R66, R73). -/
theorem step_mem {s t : State} (h : step s = .next t) : t.mem = s.mem := by
  rcases step_next_cases h with ⟨_, _, _, rfl, _⟩ | ⟨_, _, ⟨_, _, rfl⟩ | ran⟩
  · rfl
  · rfl
  · obtain ⟨_, u, _, _, _, _, he, rfl, _⟩ := ran
    have hu : u.mem = s.takeMove.countDraw.advance.mem := exec_mem he
    exact hu

/-! ### The obligations -/

/-- Settles O13: the fetch reads the two bytes, and a word is known by its number. -/
theorem fetchIsBigEndian : Obligations.FetchIsBigEndian := by
  intro m a w
  have word_iff (hi lo : Byte) : wordOfBytes hi lo = w ↔ w.toNat = hi.toNat * 256 + lo.toNat := by
    rw [← BitVec.toNat_inj, wordOfBytes_toNat, eq_comm]
  simp only [fetchWord?_eq_some, word_iff]

/-- Settles O51: memory is the same data after a step, so every address reads as before. -/
theorem noStepWritesMemory : Obligations.NoStepWritesMemory := by
  intro s t h
  have hmem : t.mem = s.mem := step_mem h
  exact ⟨fun a => by rw [hmem], hmem⟩

end Sys2Proof.Machine

/-! # The family of the encoding (30_encoding.md)

The fields of a word as numbers and the word rebuilt from them; the rows of the decoder as a case list with names; the rows of the
opcode map that a word selects, told by its class and low byte; and what `exec` does not read of a decoded instruction. -/

namespace Sys2Proof

/-! ### The fields of a word (R81) -/

section Fields

variable (w : Word)

theorem Word.opClass_toNat : w.opClass.toNat = w.toNat / 4096 := by
  have hw := w.isLt
  rw [Word.opClass, slice_toNat]
  omega

theorem Word.x_val : w.x.val = w.toNat / 256 % 16 := slice_toNat w 8 4

theorem Word.y_val : w.y.val = w.toNat / 16 % 16 := slice_toNat w 4 4

theorem Word.n_toNat : w.n.toNat = w.toNat % 16 := by
  rw [Word.n, slice_toNat]
  omega

theorem Word.nn_toNat : w.nn.toNat = w.toNat % 256 := by
  rw [Word.nn, slice_toNat]
  omega

theorem Word.nnn_toNat : w.nnn.toNat = w.toNat % 4096 := by
  rw [Word.nnn, slice_toNat]
  omega

/-- The low byte of the address field is the byte field. -/
theorem Word.nnn_lowByte : w.nnn.lowByte = w.nn := by
  apply BitVec.eq_of_toNat_eq
  rw [BitVec.toNat_setWidth, Word.nnn_toNat, Word.nn_toNat]
  omega

end Fields

/-! ### A word rebuilt from its fields -/

section Rebuilding

variable {w : Word} {c : Nibble}

theorem wordXYN_of_fields (h : w.opClass = c) : wordXYN c w.x w.y w.n = w := by
  apply BitVec.eq_of_toNat_eq
  rw [wordXYN_toNat, ← h, Word.opClass_toNat, Word.x_val, Word.y_val, Word.n_toNat]
  omega

theorem wordXNN_of_fields (h : w.opClass = c) : wordXNN c w.x w.nn = w := by
  apply BitVec.eq_of_toNat_eq
  rw [wordXNN_toNat, ← h, Word.opClass_toNat, Word.x_val, Word.nn_toNat]
  omega

theorem wordNNN_of_fields (h : w.opClass = c) : wordNNN c w.nnn = w := by
  apply BitVec.eq_of_toNat_eq
  rw [wordNNN_toNat, ← h, Word.opClass_toNat, Word.nnn_toNat]
  omega

/-- A word of class 0 is rebuilt from its second nibble and its low byte, as CLS and RET are encoded (R86). -/
theorem wordXNN_of_lowByte {nn : Byte} (h : w.opClass = c) (hn : w.nn = nn) : wordXNN c w.xBits.toFin nn = w := by
  rw [← hn]
  exact wordXNN_of_fields h

end Rebuilding

/-! ### The rows of the decoder -/

/-- The rows of the decoder: `DecodesTo w i` says which class, and in class 0 which low byte, `w` has for `i` to be read from its
fields (R89). Tied to the model by `decodesTo_decode`. -/
inductive DecodesTo (w : Word) : Instr → Prop
  | cls (h : w.opClass = 0x0#4) (hn : w.nn = 0xE0#8) : DecodesTo w (.cls w.xBits)
  | ret (h : w.opClass = 0x0#4) (hn : w.nn = 0xEE#8) : DecodesTo w (.ret w.xBits)
  | nop0nnn (h : w.opClass = 0x0#4) (hcls : w.nn ≠ 0xE0#8) (hret : w.nn ≠ 0xEE#8) : DecodesTo w (.nop0nnn w.nnn)
  | jp (h : w.opClass = 0x1#4) : DecodesTo w (.jp w.nnn)
  | call (h : w.opClass = 0x2#4) : DecodesTo w (.call w.nnn)
  | seImm (h : w.opClass = 0x3#4) : DecodesTo w (.seImm w.x w.nn)
  | sneImm (h : w.opClass = 0x4#4) : DecodesTo w (.sneImm w.x w.nn)
  | seReg (h : w.opClass = 0x5#4) : DecodesTo w (.seReg w.x w.y w.n)
  | ldImm (h : w.opClass = 0x6#4) : DecodesTo w (.ldImm w.x w.nn)
  | addImm (h : w.opClass = 0x7#4) : DecodesTo w (.addImm w.x w.nn)
  | nop8xyn (h : w.opClass = 0x8#4) : DecodesTo w (.nop8xyn w.x w.y w.n)
  | sneReg (h : w.opClass = 0x9#4) : DecodesTo w (.sneReg w.x w.y w.n)
  | ldI (h : w.opClass = 0xA#4) : DecodesTo w (.ldI w.nnn)
  | nopBnnn (h : w.opClass = 0xB#4) : DecodesTo w (.nopBnnn w.nnn)
  | nopCxnn (h : w.opClass = 0xC#4) : DecodesTo w (.nopCxnn w.x w.nn)
  | drw (h : w.opClass = 0xD#4) : DecodesTo w (.drw w.x w.y w.n)
  | nopExnn (h : w.opClass = 0xE#4) : DecodesTo w (.nopExnn w.x w.nn)
  | nopFxnn (h : w.opClass = 0xF#4) : DecodesTo w (.nopFxnn w.x w.nn)

/-- A word of class 0 is on one of the three rows that its low byte tells apart (R86). -/
theorem decodesTo_decode_class0 {w : Word} (h : w.opClass = 0x0#4) : DecodesTo w (decode w) := by
  by_cases hcls : w.nn = 0xE0#8
  · rw [decode_cls h hcls]; exact .cls h hcls
  by_cases hret : w.nn = 0xEE#8
  · rw [decode_ret h hret]; exact .ret h hret
  · rw [decode_nop0nnn h hcls hret]; exact .nop0nnn h hcls hret

/-- The decoder puts every word on one of the rows (R82, R89). -/
theorem decodesTo_decode (w : Word) : DecodesTo w (decode w) := by
  rcases opClass_cases w with (h | h | h | h) | (h | h | h | h) | (h | h | h | h) | (h | h | h | h)
  · exact decodesTo_decode_class0 h
  · rw [decode_jp h]; exact .jp h
  · rw [decode_call h]; exact .call h
  · rw [decode_seImm h]; exact .seImm h
  · rw [decode_sneImm h]; exact .sneImm h
  · rw [decode_seReg h]; exact .seReg h
  · rw [decode_ldImm h]; exact .ldImm h
  · rw [decode_addImm h]; exact .addImm h
  · rw [decode_nop8xyn h]; exact .nop8xyn h
  · rw [decode_sneReg h]; exact .sneReg h
  · rw [decode_ldI h]; exact .ldI h
  · rw [decode_nopBnnn h]; exact .nopBnnn h
  · rw [decode_nopCxnn h]; exact .nopCxnn h
  · rw [decode_drw h]; exact .drw h
  · rw [decode_nopExnn h]; exact .nopExnn h
  · rw [decode_nopFxnn h]; exact .nopFxnn h

/-- An instruction read from a word is well formed: NOP_0NNN is read only where CLS and RET are not (R170). -/
theorem DecodesTo.wf {w : Word} {i : Instr} (hi : DecodesTo w i) : i.wf = true := by
  cases hi with
  | nop0nnn h hcls hret =>
    rw [Instr.wf, Word.nnn_lowByte, Bool.and_eq_true, bne_iff_ne, bne_iff_ne]
    exact ⟨hcls, hret⟩
  | cls | ret | jp | call | seImm | sneImm | seReg | ldImm | addImm | nop8xyn | sneReg | ldI | nopBnnn | nopCxnn | drw | nopExnn
    | nopFxnn => rfl

/-- An instruction read from a word encodes to that word, since its operands are all the fields beside the class. -/
theorem DecodesTo.encode_eq {w : Word} {i : Instr} (hi : DecodesTo w i) : encode i = w := by
  cases hi with
  | cls h hn | ret h hn => exact wordXNN_of_lowByte h hn
  | nop0nnn h | jp h | call h | ldI h | nopBnnn h => exact wordNNN_of_fields h
  | seImm h | sneImm h | ldImm h | addImm h | nopCxnn h | nopExnn h | nopFxnn h => exact wordXNN_of_fields h
  | seReg h | nop8xyn h | sneReg h | drw h => exact wordXYN_of_fields h

/-! ### The rows of the opcode map -/

/-- The row of the opcode map that compares a class alone: the sixteen of them follow CLS and RET in the map, in the order of the
classes. Tied to the map by `rowsSelected_eq`. -/
def classRow (c : Nibble) : OpcodeRow := opcodeRows[2 + c.toNat]'(Nat.add_lt_add_left c.isLt 2)

/-- The row of CLS, which compares the low byte as well. -/
def clsRow : OpcodeRow := ⟨"CLS", 0xF0FF#16, 0x00E0#16⟩

/-- The row of RET, which compares the low byte as well. -/
def retRow : OpcodeRow := ⟨"RET", 0xF0FF#16, 0x00EE#16⟩

/-- The row of a class compares that class and no more (R88). -/
theorem classRow_selects (c : Nibble) (w : Word) : (classRow c).selects w = decide (w.opClass = c) := by
  have pattern : ∀ c : Nibble, (classRow c).mask = 0xF000#16 ∧ (classRow c).value = BitVec.ofNat 16 (c.toNat * 4096) := by decide
  obtain ⟨hmask, hvalue⟩ := pattern c
  rw [OpcodeRow.selects, hmask, hvalue, Bool.beq_eq_decide_eq, decide_eq_decide]
  exact mask_class w c

theorem clsRow_selects (w : Word) : clsRow.selects w = decide (w.opClass = 0x0#4 ∧ w.nn = 0xE0#8) := by
  rw [OpcodeRow.selects, Bool.beq_eq_decide_eq, decide_eq_decide]
  exact mask_class_lowByte w 0x0#4 0xE0#8

theorem retRow_selects (w : Word) : retRow.selects w = decide (w.opClass = 0x0#4 ∧ w.nn = 0xEE#8) := by
  rw [OpcodeRow.selects, Bool.beq_eq_decide_eq, decide_eq_decide]
  exact mask_class_lowByte w 0x0#4 0xEE#8

/-- The map is CLS, RET and the rows of the classes in order. -/
theorem opcodeRows_eq : opcodeRows = clsRow :: retRow :: (List.finRange 16).map fun c => classRow (BitVec.ofFin c) := by decide

/-- Of the rows of the classes a word selects the one of its own class. -/
theorem classRows_selected (w : Word) :
    ((List.finRange 16).map fun c => classRow (BitVec.ofFin c)).filter (·.selects w) = [classRow w.opClass] := by
  have one : ∀ k : Nibble, (List.finRange 16).filter (fun c => decide (k = BitVec.ofFin c)) = [k.toFin] := by decide
  have selects : (fun row : OpcodeRow => row.selects w) ∘ (fun c : Fin 16 => classRow (BitVec.ofFin c)) =
      fun c => decide (w.opClass = BitVec.ofFin c) := funext fun c => classRow_selects _ w
  rw [List.filter_map, selects, one]
  rfl

/-- The rows a word selects: CLS or RET where the class and the low byte say so, and the row of its class (R88). -/
theorem rowsSelected_eq (w : Word) :
    rowsSelected w = (if w.opClass = 0x0#4 ∧ w.nn = 0xE0#8 then [clsRow] else []) ++
      (if w.opClass = 0x0#4 ∧ w.nn = 0xEE#8 then [retRow] else []) ++ [classRow w.opClass] := by
  rw [rowsSelected, opcodeRows_eq, List.filter_cons, List.filter_cons, classRows_selected, clsRow_selects, retRow_selects]
  simp only [decide_eq_true_eq]
  split_ifs <;> rfl

theorem rowsSelected_cls {w : Word} (h : w.opClass = 0x0#4) (hn : w.nn = 0xE0#8) : rowsSelected w = [clsRow, classRow 0x0#4] := by
  rw [rowsSelected_eq, h, hn]
  rfl

theorem rowsSelected_ret {w : Word} (h : w.opClass = 0x0#4) (hn : w.nn = 0xEE#8) : rowsSelected w = [retRow, classRow 0x0#4] := by
  rw [rowsSelected_eq, h, hn]
  rfl

theorem rowsSelected_nop0nnn {w : Word} (h : w.opClass = 0x0#4) (hcls : w.nn ≠ 0xE0#8) (hret : w.nn ≠ 0xEE#8) :
    rowsSelected w = [classRow 0x0#4] := by
  rw [rowsSelected_eq, if_neg fun hw => hcls hw.2, if_neg fun hw => hret hw.2, h]
  rfl

/-- Outside class 0 no row overlaps another (R88). -/
theorem rowsSelected_of_class {w : Word} {c : Nibble} (h : w.opClass = c) (hc : c ≠ 0x0#4) : rowsSelected w = [classRow c] := by
  rw [← h] at hc ⊢
  rw [rowsSelected_eq, if_neg fun hw => hc hw.1, if_neg fun hw => hc hw.1]
  rfl

end Sys2Proof

namespace Sys2Proof.Machine

/-! ### No instruction and no step before QUIT stops the machine -/

/-- Every instruction answers a next state (R90). -/
theorem exec_next (i : Instr) (s : State) : ∃ t, exec i s = .next t := by
  rcases exec_cases i s with ⟨_, h⟩ | ⟨_, _, _, h⟩ | ⟨_, _, h⟩ | ⟨_, _, h⟩ | ⟨_, _, _, _, _, _, h⟩ | ⟨_, _, _, h⟩ | ⟨_, _, _, h⟩ |
    ⟨_, _, _, _, h⟩ | ⟨_, _, _, h⟩ <;> exact ⟨_, h⟩

/-- Every iteration answers a next state, the fault of the bound check too (R103). -/
theorem iteration_next (tick : Bool) (s : State) : ∃ t, iteration tick s = .next t := by
  rcases iteration_cases tick s with ⟨_, h⟩ | ⟨_, _, _, _, h⟩ <;> exact ⟨_, h⟩

/-- Every step before QUIT answers a next state (R231, R238). -/
theorem step_next {s : State} (hrun : s.run ≠ .quit) : ∃ t, step s = .next t := by
  rcases step_cases s with ⟨hquit, _⟩ | ⟨_, _, _, _, h⟩ | ⟨_, _, h⟩ | ⟨_, _, h⟩
  · exact absurd hquit hrun
  · exact ⟨_, h⟩
  · exact ⟨_, h⟩
  · rw [h]
    exact iteration_next _ _

/-! ### The nibbles that dispatch does not examine -/

/-- Two words of class 0 with the same low byte have the same effect: CLS and RET read no operand, NOP_0NNN does nothing (R86). -/
theorem exec_decode_class0_congr {w w' : Word} (h : w.opClass = 0x0#4) (h' : w'.opClass = 0x0#4) (hn : w'.nn = w.nn) (s : State) :
    exec (decode w') s = exec (decode w) s := by
  by_cases hcls : w.nn = 0xE0#8
  · rw [decode_cls h hcls, decode_cls h' (hn.trans hcls)]
    rfl
  by_cases hret : w.nn = 0xEE#8
  · rw [decode_ret h hret, decode_ret h' (hn.trans hret)]
    rfl
  · rw [decode_nop0nnn h hcls hret, decode_nop0nnn h' (hn ▸ hcls) (hn ▸ hret)]
    rfl

/-! ### The obligations -/

/-- Settles O2, by the round trip of each constructor. -/
theorem decodeUndoesEncode : Obligations.DecodeUndoesEncode := by
  intro i
  cases i with
  | cls x => exact Laws.RoundTrip.cls x
  | ret x => exact Laws.RoundTrip.ret x
  | nop0nnn nnn => exact Laws.RoundTrip.nop0nnn nnn
  | jp nnn => exact Laws.RoundTrip.jp nnn
  | call nnn => exact Laws.RoundTrip.call nnn
  | seImm x nn => exact Laws.RoundTrip.seImm x nn
  | sneImm x nn => exact Laws.RoundTrip.sneImm x nn
  | seReg x y n => exact Laws.RoundTrip.seReg x y n
  | ldImm x nn => exact Laws.RoundTrip.ldImm x nn
  | addImm x nn => exact Laws.RoundTrip.addImm x nn
  | nop8xyn x y n => exact Laws.RoundTrip.nop8xyn x y n
  | sneReg x y n => exact Laws.RoundTrip.sneReg x y n
  | ldI nnn => exact Laws.RoundTrip.ldI nnn
  | nopBnnn nnn => exact Laws.RoundTrip.nopBnnn nnn
  | nopCxnn x nn => exact Laws.RoundTrip.nopCxnn x nn
  | drw x y n => exact Laws.RoundTrip.drw x y n
  | nopExnn x nn => exact Laws.RoundTrip.nopExnn x nn
  | nopFxnn x nn => exact Laws.RoundTrip.nopFxnn x nn

/-- Settles O3: the instruction holds every field of the word beside the class, which its constructor tells. -/
theorem encodeUndoesDecode : Obligations.EncodeUndoesDecode :=
  fun w => ⟨(decodesTo_decode w).wf, (decodesTo_decode w).encode_eq⟩

/-- Settles O4: a word selects the row of its class, and before it CLS or RET where the low byte says so. -/
theorem wordsSelectOneRow : Obligations.WordsSelectOneRow := by
  intro w
  have hi := decodesTo_decode w
  generalize decode w = i at hi ⊢
  cases hi with
  | cls h hn => exact ⟨clsRow, rfl, .inr ⟨.inl rfl, classRow 0x0#4, rfl, rowsSelected_cls h hn⟩⟩
  | ret h hn => exact ⟨retRow, rfl, .inr ⟨.inr rfl, classRow 0x0#4, rfl, rowsSelected_ret h hn⟩⟩
  | nop0nnn h hcls hret => exact ⟨classRow 0x0#4, rfl, .inl (rowsSelected_nop0nnn h hcls hret)⟩
  | jp h | call h | seImm h | sneImm h | seReg h | ldImm h | addImm h | nop8xyn h | sneReg h | ldI h | nopBnnn h | nopCxnn h | drw h
    | nopExnn h | nopFxnn h => exact ⟨classRow _, rfl, .inl (rowsSelected_of_class h (by decide))⟩

/-- Settles O5: each slice is a quotient and remainder of the word, and the longer slices are made of the shorter ones. -/
theorem fieldsAreTheSlices : Obligations.FieldsAreTheSlices := by
  intro w
  rw [Word.opClass_toNat, Word.x_val, Word.y_val, Word.n_toNat, Word.nn_toNat, Word.nnn_toNat]
  omega

/-- Settles O6: the low byte alone chooses the row, and no meaning in class 0 reads an operand. -/
theorem class0DispatchesOnLowByte : Obligations.Class0DispatchesOnLowByte :=
  fun _ h => ⟨decode_cls h, decode_ret h, decode_nop0nnn h, fun _ s h' hn => exec_decode_class0_congr h h' hn s⟩

/-- Settles O7: the skips of classes 5 and 9 read `x` and `y` alone. -/
theorem lowNibbleOfClasses5And9Ignored : Obligations.LowNibbleOfClasses5And9Ignored := by
  intro w w' s hclass hsame hx hy
  rcases hclass with h | h
  · rw [decode_seReg h, decode_seReg (hsame.trans h), hx, hy]
    rfl
  · rw [decode_sneReg h, decode_sneReg (hsame.trans h), hx, hy]
    rfl

/-- Settles O16: an instruction's faults and the bound check's are next states in PAUSED, and only a step in QUIT stops. -/
theorem everyStepGoesOnUnlessQuit : Obligations.EveryStepGoesOnUnlessQuit :=
  fun s => ⟨fun i => exec_next i s, step_next⟩

/-- Settles O1: each word is on the row that its class and low byte name, with its nibbles as operands. -/
theorem writtenWordsDecode : Obligations.WrittenWordsDecode :=
  ⟨decode_cls rfl rfl, decode_ret rfl rfl, decode_call rfl, decode_seReg rfl, decode_ldImm rfl, decode_ldI rfl, decode_drw rfl,
    decode_nop8xyn rfl⟩

end Sys2Proof.Machine

/-! # The family of the cycle (40_cycle.md)

What the core's step is when the bound check passes and when it fails; that a fault, of the bound check or of an instruction, only
pauses, so that it recurs after the host's resume; and that the word placed by `withFetchWord` is the one fetched. -/

namespace Sys2Proof.Machine

section Steps

variable {s : State}

/-! ### The move a step makes -/

/-- A step whose schedule lists a host event first is that event (R205, R238). -/
theorem step_of_host {e : HostEvent} {rest : List Move} (hm : s.moves = .host e :: rest) :
    step s = hostEvent e (s.setMoves rest) := by
  simp only [step, nextMove, hm]

/-- The host's resume, on a machine that a fault or the host paused (R207). -/
theorem step_of_resume {rest : List Move} (hm : s.moves = .host .resume :: rest) (hr : s.run = .paused) :
    step s = .next { s with run := .running, moves := rest } := by
  have hres : (s.setMoves rest).resume = (s.setMoves rest).setRun .running := if_pos hr
  rw [step_of_host hm, hostEvent, State.setMoves_run, hr]
  exact congrArg Host.Outcome.next hres

/-- A step in RUNNING in which the core moves next is an iteration with a fresh tick draw (R100). -/
theorem step_of_core (hc : CoreMovesNext s) (hr : s.run = .running) :
    step s = iteration (Config.tickDraw s.draws) s.takeMove.countDraw := by
  rcases step_cases s with ⟨hquit, _⟩ | ⟨e, rest, hm, _⟩ | ⟨_, hpaused, _⟩ | ⟨_, _, h⟩
  · cases hr.symm.trans hquit
  · exact absurd hm (hc e rest)
  · cases hr.symm.trans hpaused
  · exact h

/-- A core step with a word to fetch runs the decoded instruction after the fetch-advance, then ends the iteration (R104 to
R106). -/
theorem step_of_fetch {w : Word} (hc : CoreMovesNext s) (hr : s.run = .running) (hf : fetchWord? s.mem s.pc.toNat = some w) :
    ∃ t, exec (decode w) s.takeMove.countDraw.advance = .next t ∧
      step s = .next (endIteration (Config.tickDraw s.draws) t) := by
  rw [step_of_core hc hr]
  rcases iteration_cases (Config.tickDraw s.draws) s.takeMove.countDraw with ⟨hnone, _⟩ | ⟨w', t, hf', he, hi⟩
  · cases hf.symm.trans hnone
  · cases hf.symm.trans hf'
    exact ⟨t, he, hi⟩

/-! ### A fault only pauses (R200, R201) -/

/-- The bound check faults above 0x0FFE, where a byte of the word is outside memory (R103). -/
theorem faultRaised?_of_pc_beyond (h : 0x0FFE < s.pc.toNat) : faultRaised? s = some .pcOutOfBounds := by
  rw [faultRaised?, (fetchWord?_eq_none s.mem s.pc.toNat).2 (by omega)]

/-- The faults of instructions: RET on an empty stack and CALL on a full one (R202). -/
theorem instrFault?_cases {i : Instr} {k : FaultKind} (h : instrFault? i s = some k) :
    ((∃ x, i = .ret x) ∧ s.sp.val = 0 ∧ k = .stackUnderflow) ∨
    ((∃ nnn, i = .call nnn) ∧ s.sp.val = 12 ∧ k = .stackOverflow) := by
  cases i with
  | ret x =>
    rw [instrFault?] at h
    split_ifs at h with h0
    cases h
    exact .inl ⟨⟨x, rfl⟩, h0, rfl⟩
  | call nnn =>
    rw [instrFault?] at h
    split_ifs at h with h12
    cases h
    exact .inr ⟨⟨nnn, rfl⟩, h12, rfl⟩
  | cls | nop0nnn | jp | seImm | sneImm | seReg | ldImm | addImm | nop8xyn | sneReg | ldI | nopBnnn | nopCxnn | drw | nopExnn
    | nopFxnn => cases h

/-- A faulting instruction pauses and leaves `pc` where the table of R200 says, from the advanced `pc` it runs with. -/
theorem exec_advance_of_instrFault {i : Instr} {k : FaultKind} (h : instrFault? i s = some k) :
    exec i s.advance = .next ((s.setPc (pcAfterFault k s)).setRun .paused) := by
  rcases instrFault?_cases h with ⟨⟨x, rfl⟩, h0, rfl⟩ | ⟨⟨nnn, rfl⟩, h12, rfl⟩
  · rcases execRet_cases x s.advance with ⟨_, e⟩ | ⟨_, hne, _⟩
    · rw [e, State.raiseFault, faultPc, instrAddr_advance]
      rfl
    · exact absurd h0 hne
  · rcases execCall_cases nnn s.advance with ⟨_, e⟩ | ⟨hlt, _⟩
    · rw [e, State.raiseFault, faultPc, instrAddr_advance]
      rfl
    · exact absurd h12 (Nat.ne_of_lt hlt)

/-- A faulting iteration pauses and leaves `pc` where the table of R200 says; no tick follows it, whatever the draw (D9). -/
theorem iteration_of_fault {k : FaultKind} (tick : Bool) (h : faultRaised? s = some k) :
    iteration tick s = .next ((s.setPc (pcAfterFault k s)).setRun .paused) := by
  rcases iteration_cases tick s with ⟨hf, hi⟩ | ⟨w, t, hf, he, hi⟩
  · rw [faultRaised?, hf] at h
    cases h
    exact hi
  · rw [faultRaised?, hf] at h
    cases he.symm.trans (exec_advance_of_instrFault h)
    exact hi

/-- A faulting step changes `pc` and the run state, and the model's own schedule and count (R201). -/
theorem step_of_fault {k : FaultKind} (hc : CoreMovesNext s) (hr : s.run = .running) (h : faultRaised? s = some k) :
    step s = .next { s with pc := pcAfterFault k s, run := .paused, moves := s.moves.tail, draws := s.draws + 1 } := by
  rw [step_of_core hc hr]
  exact iteration_of_fault _ h

/-- `pc` stays at the faulting address, after StackOverflow under the parameter of D2 (R200). -/
theorem pcAfterFault_eq_pc {k : FaultKind} (hk : k = .stackOverflow → Config.callOverflowRollsBack = true) :
    pcAfterFault k s = s.pc := by
  cases k with
  | pcOutOfBounds | stackUnderflow => rfl
  | stackOverflow => rw [pcAfterFault, if_pos (hk rfl)]

/-- A fault that leaves `pc` in place changes nothing of R30's tuple but the run state (R108). -/
theorem step_of_fault_at_pc {k : FaultKind} (hk : k = .stackOverflow → Config.callOverflowRollsBack = true)
    (hc : CoreMovesNext s) (hr : s.run = .running) (h : faultRaised? s = some k) :
    step s = .next { s with run := .paused, moves := s.moves.tail, draws := s.draws + 1 } := by
  rw [step_of_fault hc hr h, pcAfterFault_eq_pc hk]

/-- A change of `pc`, the run state and the model's own fields keeps the rest of R30's tuple. -/
theorem keptButPcAndRun_update (s : State) (pc : Word) (run : RunState) (moves : List Move) (draws : Nat) :
    KeptButPcAndRun s { s with pc := pc, run := run, moves := moves, draws := draws } :=
  ⟨⟨fun _ => rfl, rfl⟩, fun _ => rfl, rfl, ⟨rfl, rfl⟩, fun _ _ => rfl, rfl, rfl, rfl, rfl⟩

/-- The core moves next when the schedule lists an iteration first. -/
theorem coreMovesNext_of_iterate {rest : List Move} (hm : s.moves = .iterate :: rest) : CoreMovesNext s := by
  intro e rest' h
  cases hm.symm.trans h

end Steps

/-! ### The word placed where the next step fetches it -/

/-- A word's number on 16 bits is the word. -/
theorem tableWord_toNat (w : Word) : tableWord 16 w.toNat = w := by
  rw [tableWord, Nat.mod_eq_of_lt w.isLt, BitVec.ofNat_toNat, BitVec.setWidth_eq]

/-- A word's two bytes, the high one first, make the word again (R60). -/
theorem wordOfBytes_slices (w : Word) : wordOfBytes (w.extractLsb' 8 8) (w.extractLsb' 0 8) = w := by
  apply BitVec.eq_of_toNat_eq
  have hw := w.isLt
  rw [wordOfBytes_toNat, slice_toNat, slice_toNat]
  omega

/-- A word written to memory as its two bytes is fetched from there. -/
theorem fetchWord?_writeBytes {m : Memory} {a : Nat} (w : Word) (hw : m.wf = true) (ha : a + 1 < Config.memSize) :
    fetchWord? (m.writeBytes a (bytesOfWord w)) a = some w := by
  have hlen : (bytesOfWord w).length = 2 := rfl
  have hread (b : Nat) := m.read?_writeBytes (bytesOfWord w) a b hw (by omega)
  refine (fetchWord?_eq_some _ _ _).2 ⟨_, _, ?_, ?_, wordOfBytes_slices w⟩
  · rw [hread, if_pos (by omega), Nat.sub_self]
    rfl
  · rw [hread, if_pos (by omega), Nat.add_sub_cancel_left]
    rfl

/-- An instruction is placed where both bytes of its word are inside memory (R103). -/
theorem fetchPlace_inside (s : State) : (fetchPlace s).toNat + 1 < Config.memSize := by
  unfold fetchPlace
  split_ifs with h
  · exact h
  · decide

/-- After an instruction is placed the core moves next. -/
theorem coreMovesNext_withFetchWord (s : State) (nbits w : Nat) : CoreMovesNext (s.withFetchWord nbits w) := by
  intro e rest h
  unfold State.withFetchWord at h
  rcases hm : s.moves with _ | ⟨_ | _, _⟩ <;> simp [hm] at h

/-! ### The obligations -/

/-- Settles O14: above 0x0FFE the bound check faults, which only pauses; up to 0x0FFE both bytes are inside memory. -/
theorem boundCheckFaults : Obligations.BoundCheckFaults := by
  intro s hc hr
  constructor
  · intro hbeyond
    exact ⟨_, step_of_fault hc hr (faultRaised?_of_pc_beyond hbeyond), rfl, rfl, keptButPcAndRun_update ..⟩
  · intro hinside
    obtain ⟨w, hf⟩ := fetchWord?_exists s.mem s.pc.toNat hinside
    exact ⟨w, hf, (currentInstr?_eq_some s _).2 ⟨hc, hr, w, hf, rfl⟩⟩

/-- Settles O44: the fault leaves the address, the memory and the stack cursor that it is told from, and the resume restores
nothing but the run state. -/
theorem resumedFaultRecurs : Obligations.ResumedFaultRecurs := by
  intro s k rest hm hr hf hk
  have hp := step_of_fault_at_pc hk (coreMovesNext_of_iterate hm) hr hf
  rw [hm] at hp
  have hu : CoreMovesNext { s with run := .running, moves := .iterate :: rest, draws := s.draws + 1 } :=
    coreMovesNext_of_iterate rfl
  exact ⟨_, _, _, ⟨hp, rfl, rfl, keptButPcAndRun_update ..⟩,
    ⟨step_of_resume rfl rfl, rfl, rfl, keptButPcAndRun_update .., hu, hf⟩,
    step_of_fault_at_pc hk hu rfl hf, rfl, rfl, keptButPcAndRun_update .., rfl⟩

/-- Settles O59: the placed word is read back at the place, and decodes to the instruction it encodes. -/
theorem placedInstructionRunsNext : Obligations.PlacedInstructionRunsNext := by
  intro s i hmem hi
  have hfetch : fetchWord? (s.withFetchWord 16 (encode i).toNat).mem (fetchPlace s).toNat = some (encode i) := by
    rw [State.withFetchWord, tableWord_toNat]
    exact fetchWord?_writeBytes (encode i) hmem (fetchPlace_inside s)
  exact (currentInstr?_eq_some _ _).2 ⟨coreMovesNext_withFetchWord _ _ _, rfl, encode i, hfetch, decodeUndoesEncode i hi⟩

/-- Settles O15: the two bytes at `pc` are the word that is fetched and decoded; a host event is taken off the schedule. -/
theorem stepRunsDecodedInstruction : Obligations.StepRunsDecodedInstruction := by
  refine ⟨fun s hi lo i hc hr hhi hlo hdec => ?_, fun s e rest hm _ => step_of_host hm⟩
  cases hdec
  exact step_of_fetch hc hr ((fetchWord?_eq_some _ _ _).2 ⟨hi, lo, hhi, hlo, rfl⟩)

end Sys2Proof.Machine

/-! # The family of control flow (41_control_flow.md)

What CALL and RET do to the stack and the skips to `pc`; how many calls nest; and that a run in which calls and returns match
keeps every return address below the cursor it starts with. -/

namespace Sys2Proof.Machine

/-! ### Frames of the updates that control flow makes (R109) -/

theorem keptButPc_setPc (s : State) (a : Word) : KeptButPc s (s.setPc a) :=
  ⟨⟨fun _ => rfl, rfl⟩, fun _ => rfl, rfl, ⟨rfl, rfl⟩, fun _ _ => rfl, ⟨rfl, rfl, rfl, rfl⟩, rfl, rfl, rfl⟩

theorem keptButPcAndStack_update (s : State) (stack : Vector Word 12) (sp : Fin 13) (a : Word) :
    KeptButPcAndStack s ((s.setStack stack sp).setPc a) :=
  ⟨⟨fun _ => rfl, rfl⟩, fun _ => rfl, rfl, fun _ _ => rfl, ⟨rfl, rfl, rfl, rfl⟩, rfl, rfl, rfl⟩

theorem KeptButPcAndStack.run {s t : State} (h : KeptButPcAndStack s t) : t.run = s.run := by
  obtain ⟨_, _, _, _, _, hrun, _⟩ := h
  exact hrun

theorem keptButPcAndRun_raiseFault (k : FaultKind) (s : State) : KeptButPcAndRun s (s.raiseFault k) :=
  keptButPcAndRun_update s (faultPc k s) .paused s.moves s.draws

theorem scheduleKept_raiseFault (k : FaultKind) (s : State) : ScheduleKept s (s.raiseFault k) := ⟨rfl, rfl⟩

/-- The executing instruction stands two below the `pc` it runs with (R25). -/
theorem instrAddr_add_two (s : State) : s.instrAddr + 2#16 = s.pc := BitVec.sub_add_cancel s.pc 2#16

/-- `pc` after StackOverflow, under either value of the parameter of D2. -/
theorem faultPc_stackOverflow (s : State) :
    if Config.callOverflowRollsBack then faultPc .stackOverflow s + 2#16 = s.pc else faultPc .stackOverflow s = s.pc := by
  unfold faultPc
  split_ifs
  · exact instrAddr_add_two s
  · rfl

/-! ### CALL pushes and RET pops -/

/-- `t` has one return address more than `s`, and it is `ra` (R122). Tied to the model by `execCall_pushes`. -/
structure Pushes (s : State) (ra : Word) (t : State) : Prop where
  entry : t.stack[s.sp.val]? = some ra
  others : ∀ k : Nat, k ≠ s.sp.val → t.stack[k]? = s.stack[k]?
  sp : t.sp.val = s.sp.val + 1

/-- `t` has one return address less than `s`, and `pc` is at the one taken (R120). Tied to the model by `execRet_pops`. -/
structure Pops (s t : State) : Prop where
  sp : t.sp.val + 1 = s.sp.val
  entry : s.stack[t.sp.val]? = some t.pc
  stack : t.stack = s.stack

/-- CALL on a stack that is not full (R122). -/
theorem execCall_pushes (nnn : Addr12) {s : State} (h : s.sp.val ≠ 12) :
    ∃ t, exec (.call nnn) s = .next t ∧ Pushes s s.pc t ∧ t.pc = zextAddr nnn ∧ KeptButPcAndStack s t := by
  rcases execCall_cases nnn s with ⟨hfull, _⟩ | ⟨hroom, e⟩
  · exact absurd hfull h
  · exact ⟨_, e, ⟨Vector.getElem?_set_self hroom, fun k hk => Vector.getElem?_set_ne hroom hk.symm, rfl⟩, rfl,
      keptButPcAndStack_update ..⟩

/-- CALL on a full stack (R122). -/
theorem execCall_overflows (nnn : Addr12) {s : State} (h : s.sp.val = 12) :
    exec (.call nnn) s = .next (s.raiseFault .stackOverflow) := by
  rcases execCall_cases nnn s with ⟨_, e⟩ | ⟨hroom, _⟩
  · exact e
  · exact absurd h (Nat.ne_of_lt hroom)

/-- RET on a stack that is not empty (R120). -/
theorem execRet_pops (x : Nibble) {s : State} (h : s.sp.val ≠ 0) :
    ∃ t, exec (.ret x) s = .next t ∧ Pops s t ∧ KeptButPcAndStack s t := by
  rcases execRet_cases x s with ⟨hempty, _⟩ | ⟨hlt, _, e⟩
  · exact absurd hempty h
  · exact ⟨_, e, ⟨Nat.sub_add_cancel (Nat.pos_of_ne_zero h), Vector.getElem?_eq_getElem hlt, rfl⟩,
      keptButPcAndStack_update ..⟩

/-- RET on an empty stack (R120, C2). -/
theorem execRet_underflows (x : Nibble) {s : State} (h : s.sp.val = 0) :
    exec (.ret x) s = .next (s.raiseFault .stackUnderflow) := by
  rcases execRet_cases x s with ⟨_, e⟩ | ⟨_, hne, _⟩
  · exact e
  · exact absurd h hne

/-! ### The skips (R124) -/

section Skips

variable {s : State} {c : Bool}

theorem State.skipIf_pc_of_true (h : c = true) : (s.skipIf c).pc = s.pc + 2#16 := by
  rw [h]
  rfl

theorem State.skipIf_pc_of_false (h : c = false) : (s.skipIf c).pc = s.pc := by
  rw [h]
  rfl

theorem keptButPc_skipIf (s : State) (c : Bool) : KeptButPc s (s.skipIf c) := by
  rw [State.skipIf_eq]
  exact keptButPc_setPc ..

/-- The end of an iteration keeps `pc`. -/
@[simp] theorem endIteration_pc (tick : Bool) (s : State) : (endIteration tick s).pc = s.pc := by
  obtain ⟨dt, st, h, _⟩ := endIteration_eq tick s
  rw [h]
  rfl

/-- An iteration of an instruction that skips when `P` holds moves `pc` by 4 or by 2, without wrapping since the bound check has
passed (R103, R124). -/
theorem iteration_pc_of_skipIf {t : State} {w : Word} {tick : Bool} {P : Prop} [Decidable P]
    (hf : fetchWord? s.mem s.pc.toNat = some w) (hi : iteration tick s = .next t)
    (he : exec (decode w) s.advance = .next (s.advance.skipIf c)) (hP : c = true ↔ P) :
    t.pc.toNat = s.pc.toNat + (if P then 4 else 2) := by
  have hb : s.pc.toNat + 1 < 4096 := by
    by_contra hn
    cases hf.symm.trans ((fetchWord?_eq_none s.mem s.pc.toNat).2 (Nat.le_of_not_lt hn))
  have ht : t = endIteration tick (s.advance.skipIf c) := by
    rcases iteration_cases tick s with ⟨hnone, _⟩ | ⟨w', u, hf', he', hi'⟩
    · cases hf.symm.trans hnone
    · cases hf.symm.trans hf'
      cases he.symm.trans he'
      cases hi.symm.trans hi'
      rfl
  rw [ht, endIteration_pc]
  by_cases h : P
  · rw [if_pos h, State.skipIf_pc_of_true (hP.2 h), State.advance_eq, State.setPc_pc]
    bv_omega
  · rw [if_neg h, State.skipIf_pc_of_false (Bool.eq_false_iff.2 fun hc => h (hP.1 hc)), State.advance_eq, State.setPc_pc]
    bv_omega

end Skips

/-! ### Calls one after another (R125) -/

theorem callAll_cons {nnn : Addr12} {s t : State} (rest : List Addr12) (h : exec (.call nnn) s.advance = .next t) :
    callAll (nnn :: rest) s = callAll rest t := by
  rw [callAll, h]

/-- Further calls go on from where the calls before them led. -/
theorem callAll_append {xs : List Addr12} {s t : State} (ys : List Addr12) (h : callAll xs s = .next t) :
    callAll (xs ++ ys) s = callAll ys t := by
  induction xs generalizing s with
  | nil => cases h; rfl
  | cons nnn rest ih =>
    obtain ⟨u, hu⟩ := exec_next (.call nnn) s.advance
    rw [callAll_cons rest hu] at h
    rw [List.cons_append, callAll_cons _ hu]
    exact ih h

/-- Calls for which the stack has room keep the run state and move the cursor by their number. -/
theorem callAll_of_room {targets : List Addr12} {s : State} (h : s.sp.val + targets.length ≤ 12) :
    ∃ t, callAll targets s = .next t ∧ t.run = s.run ∧ t.sp.val = s.sp.val + targets.length := by
  induction targets generalizing s with
  | nil => exact ⟨s, rfl, rfl, rfl⟩
  | cons nnn rest ih =>
    rw [List.length_cons] at h ⊢
    obtain ⟨u, hu, hpushes, _, hkept⟩ := execCall_pushes nnn (s := s.advance) (show s.sp.val ≠ 12 by omega)
    have hsp : u.sp.val = s.sp.val + 1 := hpushes.sp
    obtain ⟨t, ht, htrun, htsp⟩ := ih (s := u) (by omega)
    exact ⟨t, (callAll_cons rest hu).trans ht, htrun.trans hkept.run, by omega⟩

/-- One call on a full stack pauses the machine and leaves the cursor (R122). -/
theorem callAll_overflows (nnn : Addr12) {s : State} (h : s.sp.val = 12) :
    callAll [nnn] s = .next (s.advance.raiseFault .stackOverflow) :=
  callAll_cons [] (execCall_overflows nnn (s := s.advance) h)

/-! ### Matched calls and returns (R123) -/

/-- A step with a current instruction runs it after the fetch-advance, and then changes the timers at most. -/
theorem step_of_currentInstr {s : State} {i : Instr} (h : currentInstr? s = some i) :
    ∃ u dt st, exec i s.takeMove.countDraw.advance = .next u ∧ step s = .next (u.setTimers dt st) := by
  obtain ⟨hc, hr, w, hf, rfl⟩ := (currentInstr?_eq_some s i).1 h
  obtain ⟨u, hu, hs⟩ := step_of_fetch hc hr hf
  obtain ⟨dt, st, hend, _⟩ := endIteration_eq (Config.tickDraw s.draws) u
  exact ⟨u, dt, st, hu, hs.trans (congrArg Host.Outcome.next hend)⟩

/-- A CALL that does not fault pushes the address after it. -/
theorem RunsCall.pushes {s t : State} (h : RunsCall s t) : Pushes s (s.pc + 2#16) t := by
  obtain ⟨⟨nnn, hi⟩, hsp, hstep⟩ := h
  obtain ⟨u, dt, st, hu, hs⟩ := step_of_currentInstr hi
  obtain ⟨u', hu', ⟨hentry, hothers, hcursor⟩, _⟩ := execCall_pushes nnn (s := s.takeMove.countDraw.advance) hsp
  cases hu.symm.trans hu'
  cases hstep.symm.trans hs
  exact ⟨hentry, hothers, hcursor⟩

/-- A RET that does not fault pops the address it goes to. -/
theorem RunsRet.pops {s t : State} (h : RunsRet s t) : Pops s t := by
  obtain ⟨⟨x, hi⟩, hsp, hstep⟩ := h
  obtain ⟨u, dt, st, hu, hs⟩ := step_of_currentInstr hi
  obtain ⟨u', hu', ⟨hcursor, hentry, hstack⟩, _⟩ := execRet_pops x (s := s.takeMove.countDraw.advance) hsp
  cases hu.symm.trans hu'
  cases hstep.symm.trans hs
  exact ⟨hcursor, hentry, hstack⟩

/-- The cursor and every return address below it are kept: the invariant of matched runs, tied to the model by
`Matched.callersKept`. -/
structure CallersKept (s t : State) : Prop where
  sp : t.sp = s.sp
  below : ∀ k : Nat, k < s.sp.val → t.stack[k]? = s.stack[k]?

namespace CallersKept

variable {s t u v : State}

theorem of_eq (hsp : t.sp = s.sp) (hstack : t.stack = s.stack) : CallersKept s t :=
  ⟨hsp, fun k _ => by rw [hstack]⟩

theorem trans (h : CallersKept s t) (h' : CallersKept t u) : CallersKept s u :=
  ⟨h'.sp.trans h.sp, fun k hk => (h'.below k (by rw [h.sp]; exact hk)).trans (h.below k hk)⟩

/-- A call, a run that keeps its callers, and a return together keep the callers. -/
theorem of_nested {ra : Word} (hcall : Pushes s ra t) (h : CallersKept t u) (hret : Pops u v) : CallersKept s v := by
  have htsp := hcall.sp
  have hvsp := hret.sp
  rw [h.sp] at hvsp
  refine ⟨Fin.ext (by omega), fun k hk => ?_⟩
  calc v.stack[k]? = u.stack[k]? := by rw [hret.stack]
    _ = t.stack[k]? := h.below k (by omega)
    _ = s.stack[k]? := hcall.others k (by omega)

/-- The return goes to the address that the call pushed. -/
theorem pc_of_nested {ra : Word} (hcall : Pushes s ra t) (h : CallersKept t u) (hret : Pops u v) : v.pc = ra := by
  have htsp := hcall.sp
  have hvsp := hret.sp
  rw [h.sp] at hvsp
  have hcursor : v.sp.val = s.sp.val := by omega
  apply Option.some.inj
  calc some v.pc = u.stack[s.sp.val]? := by rw [← hret.entry, hcursor]
    _ = t.stack[s.sp.val]? := h.below _ (by omega)
    _ = some ra := hcall.entry

/-- A step that runs no CALL and no RET keeps the callers, a fault of either too. -/
theorem of_step (h : step s = .next t) (hcall : ¬ ∃ t', RunsCall s t') (hret : ¬ ∃ t', RunsRet s t') : CallersKept s t := by
  rcases step_dataKept_or_ran h with kept | ⟨i, a, u, hi, before, he, after⟩
  · exact of_eq kept.sp kept.stack
  · cases effect_of_exec he with
    | call nnn hlt =>
      rw [before.sp] at hlt
      exact absurd ⟨t, ⟨nnn, hi⟩, Nat.ne_of_lt hlt, h⟩ hcall
    | ret x _ h0 =>
      rw [before.sp] at h0
      exact absurd ⟨t, ⟨x, hi⟩, h0, h⟩ hret
    | idle | skip | jump | load | add | index | clear | draw | overflow | underflow =>
      exact of_eq (after.sp.trans before.sp) (after.stack.trans before.stack)

end CallersKept

/-- A run in which calls and returns match keeps the callers. -/
theorem Matched.callersKept {s t : State} (h : Matched s t) : CallersKept s t := by
  induction h with
  | done s => exact .of_eq rfl rfl
  | other s t u hstep hcall hret _ ih => exact (CallersKept.of_step hstep hcall hret).trans ih
  | nested s t u v w hcall _ hret _ inner rest => exact (CallersKept.of_nested hcall.pushes inner hret.pops).trans rest

/-! ### The obligations -/

/-- Settles O22: JP is one update of `pc`. -/
theorem jpJumps : Obligations.JpJumps :=
  ⟨fun w h => decode_jp ((mask_class w 0x1#4).1 h), fun nnn s => ⟨_, rfl, zextAddr_toNat nnn, keptButPc_setPc s _⟩⟩

/-- Settles O23: a pop with an entry to take, else the fault that only pauses. -/
theorem retPopsOrUnderflows : Obligations.RetPopsOrUnderflows := by
  refine ⟨fun w h => ?_, fun x s => ⟨fun h => ?_, fun h => ?_⟩⟩
  · obtain ⟨hclass, hlow⟩ := (mask_class_lowByte w 0x0#4 0xEE#8).1 h
    exact decode_ret hclass hlow
  · obtain ⟨t, he, hpops, hkept⟩ := execRet_pops x h
    exact ⟨t, he, hpops.sp, hpops.entry, hpops.stack, hkept⟩
  · exact ⟨_, execRet_underflows x h, rfl, instrAddr_add_two s, keptButPcAndRun_raiseFault .., scheduleKept_raiseFault ..⟩

/-- Settles O24: a push of the advanced `pc`, and the jump. -/
theorem callPushesAndJumps : Obligations.CallPushesAndJumps := by
  refine ⟨fun w h => decode_call ((mask_class w 0x2#4).1 h), fun nnn s h => ?_⟩
  obtain ⟨t, he, hpushes, hpc, hkept⟩ := execCall_pushes nnn h
  exact ⟨t, he, hpushes.entry, hpushes.others, hpushes.sp, by rw [hpc, zextAddr_toNat], hkept⟩

/-- Settles O25: the fault only pauses, with `pc` by the parameter. -/
theorem callOverflowPauses : Obligations.CallOverflowPauses := fun nnn s h =>
  ⟨_, execCall_overflows nnn h, rfl, faultPc_stackOverflow s, keptButPcAndRun_raiseFault .., scheduleKept_raiseFault ..⟩

/-- Settles O26: the skip's condition is the comparison with the immediate. -/
theorem seImmSkipsWhenEqual : Obligations.SeImmSkipsWhenEqual := by
  refine ⟨fun w h => decode_seImm ((mask_class w 0x3#4).1 h), fun x nn s => ⟨_, rfl, fun h => ?_, fun h => ?_, ?_⟩⟩
  · exact State.skipIf_pc_of_true (beq_iff_eq.2 h)
  · exact State.skipIf_pc_of_false (beq_eq_false_iff_ne.2 h)
  · exact keptButPc_skipIf s _

/-- Settles O27: the skip's condition is the comparison with the immediate, negated. -/
theorem sneImmSkipsWhenDifferent : Obligations.SneImmSkipsWhenDifferent := by
  refine ⟨fun w h => decode_sneImm ((mask_class w 0x4#4).1 h), fun x nn s => ⟨_, rfl, fun h => ?_, fun h => ?_, ?_⟩⟩
  · exact State.skipIf_pc_of_true (bne_iff_ne.2 h)
  · exact State.skipIf_pc_of_false (bne_eq_false_iff_eq.2 h)
  · exact keptButPc_skipIf s _

/-- Settles O28: the skip's condition is the comparison of the two registers, and a register equals itself. -/
theorem registerSkipsCompareTwoRegisters : Obligations.RegisterSkipsCompareTwoRegisters := by
  refine ⟨fun w h => decode_seReg ((mask_class w 0x5#4).1 h), fun w h => decode_sneReg ((mask_class w 0x9#4).1 h),
    fun x y n s => ?_⟩
  have hsame : x = y → s.readV x = s.readV y := congrArg s.readV
  constructor
  · have hskip (h : s.readV x = s.readV y) := State.skipIf_pc_of_true (s := s) (beq_iff_eq.2 h)
    exact ⟨_, rfl, hskip, fun h => State.skipIf_pc_of_false (beq_eq_false_iff_ne.2 h), fun h => hskip (hsame h),
      keptButPc_skipIf s _⟩
  · have hstay (h : s.readV x = s.readV y) := State.skipIf_pc_of_false (s := s) (bne_eq_false_iff_eq.2 h)
    exact ⟨_, rfl, fun h => State.skipIf_pc_of_true (bne_iff_ne.2 h), hstay, fun h => hstay (hsame h), keptButPc_skipIf s _⟩

/-- Settles O29: each of the four classes is a skip under its own condition, read before the fetch-advance or after. -/
theorem skipsAdvanceByFourOrTwo : Obligations.SkipsAdvanceByFourOrTwo := by
  intro s w tick _ hf
  obtain ⟨t, hi⟩ := iteration_next tick s
  have hexec {i : Instr} (h : decode w = i) : exec (decode w) s.advance = exec i s.advance := by rw [h]
  refine ⟨t, hi, fun h => ?_, fun h => ?_, fun h => ?_, fun h => ?_⟩
  · exact iteration_pc_of_skipIf hf hi (hexec (decode_seImm h)) beq_iff_eq
  · exact iteration_pc_of_skipIf hf hi (hexec (decode_sneImm h)) bne_iff_ne
  · exact iteration_pc_of_skipIf hf hi (hexec (decode_seReg h)) beq_iff_eq
  · exact iteration_pc_of_skipIf hf hi (hexec (decode_sneReg h)) bne_iff_ne

/-- Settles O30: calls with room move the cursor, one each, and a call on the full stack overflows. -/
theorem nestingDepthIsTwelve : Obligations.NestingDepthIsTwelve := by
  intro targets s hr hroom
  obtain ⟨t, ht, hrun, hsp⟩ := callAll_of_room hroom
  refine ⟨t, ht, hrun.trans hr, hsp, fun hfull nnn => ?_⟩
  exact ⟨_, (callAll_append [nnn] ht).trans (callAll_overflows nnn hfull), rfl, hfull⟩

/-- Settles O31: a matched run keeps the address that the CALL pushed, and the RET at its end pops it. -/
theorem matchedCallReturnsAfterIt : Obligations.MatchedCallReturnsAfterIt :=
  fun _ _ _ _ hcall hrun hret => CallersKept.pc_of_nested hcall.pushes hrun.callersKept hret.pops

end Sys2Proof.Machine

/-! # The family of register load and add (42_register_load_add.md)

LD and ADD are one write of a register, LD I one write of `I`: the frame of each write, said once, and the obligations from it. -/

namespace Sys2Proof.Machine

/-! ### Frames of a register write and of an index write (R109) -/

section Frames

variable (s : State) (x : RegIx) (b : Byte)

theorem regsKeptBut_writeV : RegsKeptBut x s (s.writeV x b) :=
  fun r hr => s.readV_writeV_other x r b hr

theorem keptButRegs_writeV : KeptButRegs s (s.writeV x b) :=
  ⟨⟨fun _ => rfl, rfl⟩, rfl, rfl, ⟨rfl, rfl⟩, fun _ _ => rfl, ⟨rfl, rfl, rfl, rfl⟩, rfl, rfl, rfl⟩

theorem keptButIndex_setI (a : Word) : KeptButIndex s (s.setI a) :=
  ⟨⟨fun _ => rfl, rfl⟩, fun _ => rfl, rfl, ⟨rfl, rfl⟩, fun _ _ => rfl, ⟨rfl, rfl, rfl, rfl⟩, rfl, rfl, rfl⟩

end Frames

/-! ### The obligations -/

/-- Settles O19: LD is one write of `V[x]`, with the immediate. -/
theorem ldImmLoadsImmediate : Obligations.LdImmLoadsImmediate := by
  refine ⟨fun w h => decode_ldImm ((mask_class w 0x6#4).1 h), fun x nn s => ⟨s.writeV x nn, rfl, ?_, ?_, ?_⟩⟩
  · exact s.readV_writeV_self x nn
  · exact regsKeptBut_writeV s x nn
  · exact keptButRegs_writeV s x nn

/-- Settles O20: ADD is one write of `V[x]`, with the sum of bytes, which wraps at 256; the flag register is written only when it
is `V[x]`. -/
theorem addImmWrapsWithoutFlag : Obligations.AddImmWrapsWithoutFlag := by
  refine ⟨fun w h => decode_addImm ((mask_class w 0x7#4).1 h),
    fun x nn s => ⟨s.writeV x (s.readV x + nn), rfl, ?_, ?_, ?_⟩⟩
  · rw [State.readV_writeV_self, BitVec.toNat_add]
  · exact regsKeptBut_writeV s x _
  · exact keptButRegs_writeV s x _

/-- Settles O21: LD I is one write of `I`, with the operand, which zero-extension keeps as a number. -/
theorem ldIndexLoadsAddress : Obligations.LdIndexLoadsAddress := by
  refine ⟨fun w h => decode_ldI ((mask_class w 0xA#4).1 h), fun nnn s => ⟨s.setI (zextAddr nnn), rfl, ?_, ?_⟩⟩
  · exact zextAddr_toNat nnn
  · exact keptButIndex_setI s _

end Sys2Proof.Machine

/-! # The family of the display (43_display.md)

Every draw, of one row or of a whole sprite, inverts the pixels of one set and raises the flag if one of them was on (`Inverts`).
The loops over columns and rows are put together from sets with no pixel in common, and DRW's set is `SpriteCovers`. The obligations
on DRW follow from that set alone. -/

namespace Sys2Proof.Machine

/-! ### Inverting a set of pixels (R158) -/

/-- The canvas `e` is the canvas `d` with exactly the pixels of `P` inverted, and with the flag raised too if one of them was on. -/
structure Inverts (P : Fin 32 → Fin 64 → Prop) (d e : Canvas) : Prop where
  inverted : ∀ r c, P r c → pixel e.1 r c = !pixel d.1 r c
  kept : ∀ r c, ¬ P r c → pixel e.1 r c = pixel d.1 r c
  flag : e.2 = true ↔ d.2 = true ∨ ∃ r c, P r c ∧ pixel d.1 r c = true

namespace Inverts

variable {P Q : Fin 32 → Fin 64 → Prop} {d e f : Canvas}

theorem of_empty (hP : ∀ r c, ¬ P r c) : Inverts P d d :=
  ⟨fun r c h => absurd h (hP r c), fun _ _ _ => rfl, by simp [hP]⟩

theorem congr (h : Inverts P d e) (hPQ : ∀ r c, Q r c ↔ P r c) : Inverts Q d e := by
  have hset : Q = P := funext fun r => funext fun c => propext (hPQ r c)
  exact hset ▸ h

/-- One set after another inverts their union when they have no pixel in common: the second meets its pixels as they were. -/
theorem union (h : Inverts P d e) (h' : Inverts Q e f) (apart : ∀ r c, P r c → ¬ Q r c) :
    Inverts (fun r c => P r c ∨ Q r c) d f where
  inverted r c hc := by
    rcases hc with hP | hQ
    · rw [h'.kept r c (apart r c hP), h.inverted r c hP]
    · rw [h'.inverted r c hQ, h.kept r c fun hP => apart r c hP hQ]
  kept r c hc := by
    obtain ⟨hP, hQ⟩ := not_or.1 hc
    rw [h'.kept r c hQ, h.kept r c hP]
  flag := by
    have met : (∃ r c, Q r c ∧ pixel e.1 r c = true) ↔ ∃ r c, Q r c ∧ pixel d.1 r c = true :=
      exists₂_congr fun r c => and_congr_right fun hQ => by rw [h.kept r c fun hP => apart r c hP hQ]
    simp only [h'.flag, h.flag, met, or_assoc, or_and_right, exists_or]

/-- The set says all that is drawn. -/
theorem unique (h : Inverts P d e) (h' : Inverts P d f) : e = f := by
  refine Prod.ext (framebuffer_ext _ _ fun r c => ?_) (Bool.eq_iff_iff.2 (h.flag.trans h'.flag.symm))
  by_cases hP : P r c
  · rw [h.inverted r c hP, h'.inverted r c hP]
  · rw [h.kept r c hP, h'.kept r c hP]

end Inverts

/-! ### One row and all rows of a sprite -/

/-- A set bit of a sprite byte, drawn from column `ox`, falls on column `c` (R158). -/
def FallsOn (b : Byte) (ox : Nat) (c : Fin 64) : Prop := ∃ col, col < 8 ∧ ox + col = c.val ∧ b.getLsbD (7 - col) = true

theorem bitOn_iff_fallsOn (b : Byte) (ox : Nat) (c : Fin 64) : bitOn b ox 0 8 c = true ↔ FallsOn b ox c := by
  simp only [bitOn, spriteBit, Bool.and_eq_true, decide_eq_true_eq]
  constructor
  · rintro ⟨hcol, hbit⟩
    exact ⟨c.val - ox, by omega, by omega, hbit⟩
  · rintro ⟨col, hcol, hc, hbit⟩
    have hsub : c.val - ox = col := by omega
    exact ⟨by omega, hsub ▸ hbit⟩

/-- The eight columns of one sprite byte (R157, R158). -/
theorem drawCols_inverts (b : Byte) (ox : Nat) (row : Fin 32) (d : Canvas) :
    Inverts (fun r c => r = row ∧ FallsOn b ox c) d (drawCols b ox row 8 0 d) := by
  obtain ⟨hpixel, hflag⟩ := drawCols_spec b ox row 8 0 d
  simp only [bitOn_iff_fallsOn] at hflag
  refine ⟨fun r c h => ?_, fun r c h => ?_, by simpa [and_assoc] using hflag⟩
  · rw [hpixel, (bitOn_iff_fallsOn b ox c).2 h.2]
    simp [h.1]
  · have hoff : (decide (row = r) && bitOn b ox 0 8 c) = false := by
      rw [Bool.eq_false_iff, ne_eq, Bool.and_eq_true, decide_eq_true_eq, bitOn_iff_fallsOn]
      exact fun ⟨hr, hc⟩ => h ⟨hr.symm, hc⟩
    rw [hpixel, hoff, Bool.xor_false]

/-- One of the sprite rows `row .. row + left - 1` is inside memory (R155) and has a set bit that falls on the pixel. -/
def RowsCover (m : Memory) (base ox oy left row : Nat) (r : Fin 32) (c : Fin 64) : Prop :=
  ∃ k b, row ≤ k ∧ k < row + left ∧ oy + k = r.val ∧ m.read? (base + k) = some b ∧ FallsOn b ox c

section Rows

variable {m : Memory} {base ox oy left row : Nat}

theorem not_rowsCover_zero (r : Fin 32) (c : Fin 64) : ¬ RowsCover m base ox oy 0 row r c := by
  rintro ⟨k, b, hlo, hhi, -⟩
  omega

/-- At the memory bound no later row is inside memory, so a draw that ends there leaves nothing out (R155). -/
theorem not_rowsCover_of_read_none (h : m.read? (base + row) = none) (r : Fin 32) (c : Fin 64) :
    ¬ RowsCover m base ox oy left row r c := by
  rintro ⟨k, b, hlo, -, -, hread, -⟩
  have hbound := (m.read?_eq_none _).1 h
  have hnone : m.read? (base + k) = none := (m.read?_eq_none _).2 (by omega)
  simp [hnone] at hread

/-- At the bottom edge no later row is on the screen (R156). -/
theorem not_rowsCover_of_below (h : 32 ≤ oy + row) (r : Fin 32) (c : Fin 64) : ¬ RowsCover m base ox oy left row r c := by
  rintro ⟨k, b, hlo, -, hr, -⟩
  omega

theorem rowsCover_succ {b : Byte} (h : oy + row < 32) (hb : m.read? (base + row) = some b) (r : Fin 32) (c : Fin 64) :
    RowsCover m base ox oy (left + 1) row r c ↔
      (r = ⟨oy + row, h⟩ ∧ FallsOn b ox c) ∨ RowsCover m base ox oy left (row + 1) r c := by
  constructor
  · rintro ⟨k, b', hlo, hhi, hr, hread, hc⟩
    rcases hlo.eq_or_lt with rfl | hlt
    · rw [hb] at hread
      cases hread
      exact .inl ⟨Fin.ext hr.symm, hc⟩
    · exact .inr ⟨k, b', hlt, by omega, hr, hread, hc⟩
  · rintro (⟨rfl, hc⟩ | ⟨k, b', hlo, hhi, hr, hread, hc⟩)
    · exact ⟨row, b, le_rfl, by omega, rfl, hb, hc⟩
    · exact ⟨k, b', by omega, by omega, hr, hread, hc⟩

end Rows

/-- The rows of a sprite, each on a screen row of its own (R155 to R158). -/
theorem drawRows_inverts (m : Memory) (base ox oy left row : Nat) (d : Canvas) :
    Inverts (RowsCover m base ox oy left row) d (drawRows m base ox oy left row d) := by
  induction left generalizing row d with
  | zero => exact .of_empty not_rowsCover_zero
  | succ left ih =>
    obtain ⟨hnone, he⟩ | ⟨hbelow, he⟩ | ⟨b, h, hb, he⟩ := drawRows_succ m base ox oy left row d
    · exact he.symm ▸ .of_empty (not_rowsCover_of_read_none hnone)
    · exact he.symm ▸ .of_empty (not_rowsCover_of_below hbelow)
    · have apart (r : Fin 32) (c : Fin 64) : r = ⟨oy + row, h⟩ ∧ FallsOn b ox c → ¬ RowsCover m base ox oy left (row + 1) r c := by
        rintro ⟨rfl, -⟩ ⟨k, b', hlo, -, hr, -⟩
        have hsame : oy + k = oy + row := hr
        omega
      rw [he]
      exact ((drawCols_inverts b ox _ d).union (ih _ _) apart).congr (rowsCover_succ h hb)

/-! ### DRW -/

/-- The canvas that DRW ends with: the screen and the collision flag (R152). -/
def State.drawn (s : State) (x y : RegIx) (n : Nibble) : Canvas :=
  drawRows s.mem s.i.toNat (s.originX x) (s.originY y) n.toNat 0 (s.fb, false)

/-- The state that DRW answers. -/
def State.afterDraw (s : State) (x y : RegIx) (n : Nibble) : State :=
  (s.setFb (s.drawn x y n).1).setCollision (s.drawn x y n).2

section Draw

variable (x y : RegIx) (n : Nibble) (s : State)

theorem exec_drw : exec (.drw x y n) s = .next (s.afterDraw x y n) := rfl

theorem spriteCovers_iff_rowsCover (r : Fin 32) (c : Fin 64) :
    SpriteCovers s x y n r c ↔ RowsCover s.mem s.i.toNat (s.originX x) (s.originY y) n.toNat 0 r c := by
  constructor
  · rintro ⟨row, col, b, hrow, hcol, hr, hc, hread, hbit⟩
    exact ⟨row, b, row.zero_le, by omega, hr, hread, col, hcol, hc, hbit⟩
  · rintro ⟨row, b, -, hrow, hr, hread, col, hcol, hc, hbit⟩
    exact ⟨row, col, b, by omega, hcol, hr, hc, hread, hbit⟩

theorem drawn_inverts : Inverts (SpriteCovers s x y n) (s.fb, false) (s.drawn x y n) :=
  (drawRows_inverts ..).congr (spriteCovers_iff_rowsCover x y n s)

theorem State.afterDraw_flag : (s.afterDraw x y n).readV 15 = collisionByte (s.drawn x y n).2 :=
  State.readV_writeV_self ..

theorem State.regsKeptBut_afterDraw : RegsKeptBut 15 s (s.afterDraw x y n) :=
  regsKeptBut_writeV (s.setFb _) 15 _

theorem keptButScreenAndFlag_afterDraw : KeptButScreenAndFlag s (s.afterDraw x y n) :=
  ⟨⟨fun _ => rfl, rfl⟩, s.regsKeptBut_afterDraw x y n, rfl, rfl, ⟨rfl, rfl⟩, ⟨rfl, rfl, rfl, rfl⟩, rfl, rfl, rfl⟩

variable {x y n s}

theorem pixel_afterDraw_of_covered {r : Fin 32} {c : Fin 64} (h : SpriteCovers s x y n r c) :
    pixel (s.afterDraw x y n).fb r c = !pixel s.fb r c :=
  (drawn_inverts x y n s).inverted r c h

theorem pixel_afterDraw_of_not_covered {r : Fin 32} {c : Fin 64} (h : ¬ SpriteCovers s x y n r c) :
    pixel (s.afterDraw x y n).fb r c = pixel s.fb r c :=
  (drawn_inverts x y n s).kept r c h

theorem flag_afterDraw_of_collision (h : ∃ r c, SpriteCovers s x y n r c ∧ pixel s.fb r c = true) :
    (s.afterDraw x y n).readV 15 = 1#8 := by
  rw [State.afterDraw_flag, (drawn_inverts x y n s).flag.2 (.inr h)]
  rfl

theorem flag_afterDraw_of_no_collision (h : ¬ ∃ r c, SpriteCovers s x y n r c ∧ pixel s.fb r c = true) :
    (s.afterDraw x y n).readV 15 = 0#8 := by
  have hflag : (s.drawn x y n).2 = false :=
    Bool.eq_false_iff.2 fun hhit => h (((drawn_inverts x y n s).flag.1 hhit).resolve_left Bool.false_ne_true)
  rw [State.afterDraw_flag, hflag]
  rfl

/-- On a screen that is all off a draw collides with nothing and shows the sprite (R151). -/
theorem afterDraw_of_blank (h : ∀ r c, pixel s.fb r c = false) :
    (s.afterDraw x y n).readV 15 = 0#8 ∧ ∀ r c, pixel (s.afterDraw x y n).fb r c = true ↔ SpriteCovers s x y n r c := by
  refine ⟨flag_afterDraw_of_no_collision fun ⟨r, c, _, hon⟩ => by simp [h] at hon, fun r c => ?_⟩
  by_cases hc : SpriteCovers s x y n r c
  · simp [pixel_afterDraw_of_covered hc, h, hc]
  · simp [pixel_afterDraw_of_not_covered hc, h, hc]

/-- A sprite covers the same pixels from another state with the same origin and the same bytes in the rows that are on the screen. -/
theorem spriteCovers_congr {t : State} (hx : t.readV x = s.readV x) (hy : t.readV y = s.readV y) (hi : t.i = s.i)
    (hm : ∀ row, row < n.toNat → (s.readV y).toNat % 32 + row < 32 →
      t.mem.read? (s.i.toNat + row) = s.mem.read? (s.i.toNat + row)) (r : Fin 32) (c : Fin 64) :
    SpriteCovers t x y n r c ↔ SpriteCovers s x y n r c := by
  unfold SpriteCovers
  rw [hx, hy, hi]
  refine exists₃_congr fun row col b => and_congr_right fun hrow => and_congr_right fun _ => and_congr_right fun hr => ?_
  rw [hm row hrow (hr ▸ r.isLt)]

/-- The second memory enters a draw through the canvas alone. -/
theorem afterDraw_setMem {m : Memory} (h : (s.setMem m).drawn x y n = s.drawn x y n) :
    (s.setMem m).afterDraw x y n = (s.afterDraw x y n).setMem m := by
  unfold State.afterDraw
  rw [h]
  rfl

end Draw

/-! ### The obligations -/

/-- Settles O32: CLS is one write of the framebuffer. -/
theorem clsClearsScreen : Obligations.ClsClearsScreen := by
  refine ⟨fun w h => ?_, fun x s => ⟨s.setFb blankScreen, rfl, pixel_blankScreen, ?_⟩⟩
  · obtain ⟨hclass, hlow⟩ := (mask_class_lowByte w 0x0#4 0xE0#8).1 h
    exact decode_cls hclass hlow
  · exact ⟨⟨fun _ => rfl, rfl⟩, fun _ => rfl, rfl, rfl, ⟨rfl, rfl⟩, ⟨rfl, rfl, rfl, rfl⟩, rfl, rfl, rfl⟩

/-- Settles O33: DRW inverts the set `SpriteCovers`, and its flag is the collision byte. -/
theorem drwXorsSprite : Obligations.DrwXorsSprite := by
  refine ⟨fun w h => decode_drw ((mask_class w 0xD#4).1 h), fun x y n s => ⟨_, exec_drw x y n s, ?_⟩⟩
  exact ⟨fun _ _ => pixel_afterDraw_of_covered, fun _ _ => pixel_afterDraw_of_not_covered, flag_afterDraw_of_collision,
    flag_afterDraw_of_no_collision, keptButScreenAndFlag_afterDraw x y n s⟩

/-- Settles O34: the eight columns of a row invert the pixels on which its set bits fall. -/
theorem spriteRowXorsAndClips : Obligations.SpriteRowXorsAndClips := by
  intro b ox row fb hit
  obtain ⟨hinverted, hkept, hflag⟩ := drawCols_inverts b ox row (fb, hit)
  refine ⟨fun c h => hinverted row c ⟨rfl, h⟩, hkept, hflag.trans (or_congr_right ?_)⟩
  constructor
  · rintro ⟨r, c, ⟨rfl, col, hcol, hc, hbit⟩, hon⟩
    exact ⟨col, c, hcol, hc, hbit, hon⟩
  · rintro ⟨col, c, hcol, hc, hbit, hon⟩
    exact ⟨row, c, ⟨rfl, col, hcol, hc, hbit⟩, hon⟩

/-- Settles O35: the covered set reads no row below the screen and holds no pixel above the origin's row. -/
theorem rowsBelowScreenAreNotRead : Obligations.RowsBelowScreenAreNotRead := by
  intro x y n s m hm
  have hset := spriteCovers_congr (s := s) (t := s.setMem m) (x := x) rfl rfl rfl hm
  have hdrawn : (s.setMem m).drawn x y n = s.drawn x y n :=
    (drawn_inverts x y n (s.setMem m)).unique ((drawn_inverts x y n s).congr hset)
  refine ⟨_, _, exec_drw x y n s, exec_drw x y n (s.setMem m), ?_, ?_, fun r c hr => pixel_afterDraw_of_not_covered ?_⟩
  · rw [afterDraw_setMem hdrawn, State.setMem_fb]
  · rw [afterDraw_setMem hdrawn, State.setMem_v]
  · rintro ⟨row, -, -, -, -, hrow, -⟩
    omega

/-- Settles O36: with no rows the draw is one write of the flag, from every memory. -/
theorem drwZeroHeightOnlyClearsFlag : Obligations.DrwZeroHeightOnlyClearsFlag := fun _ _ s =>
  ⟨s.writeV 15 0#8, rfl, s.readV_writeV_self 15 0#8, regsKeptBut_writeV s 15 _, keptButRegs_writeV s 15 _, fun _ => rfl⟩

/-- Settles O37: the second draw covers the set of the first, since the origin and the sprite are kept; a covered pixel that the
second meets on is one that the first turned on. -/
theorem drawTwiceRestores : Obligations.DrawTwiceRestores := by
  intro x y n s a hx hy
  have hregs := s.regsKeptBut_afterDraw x y n
  have hset := spriteCovers_congr (s := s) (t := (s.afterDraw x y n).setPc a) (n := n) (hregs x hx) (hregs y hy) rfl
    fun _ _ _ => rfl
  have hmet : (∃ r c, SpriteCovers ((s.afterDraw x y n).setPc a) x y n r c ∧ pixel (s.afterDraw x y n).fb r c = true) ↔
      ∃ r c, pixel s.fb r c = false ∧ pixel (s.afterDraw x y n).fb r c = true := by
    refine exists₂_congr fun r c => and_congr_left fun hon => ?_
    rw [hset]
    by_cases hc : SpriteCovers s x y n r c
    · simpa [hc, pixel_afterDraw_of_covered hc] using hon
    · simpa [hc, pixel_afterDraw_of_not_covered hc] using hon
  refine ⟨_, _, exec_drw x y n s, exec_drw x y n _, fun r c => ?_, fun h => flag_afterDraw_of_collision (hmet.2 h),
    fun h => flag_afterDraw_of_no_collision (mt hmet.1 h)⟩
  by_cases hc : SpriteCovers s x y n r c
  · rw [pixel_afterDraw_of_covered ((hset r c).2 hc), State.setPc_fb, pixel_afterDraw_of_covered hc, Bool.not_not]
  · rw [pixel_afterDraw_of_not_covered (mt (hset r c).1 hc), State.setPc_fb, pixel_afterDraw_of_not_covered hc]

/-- Settles O38: CLS leaves a blank screen, and the origin and the sprite as they were. -/
theorem drawAfterClsShowsSprite : Obligations.DrawAfterClsShowsSprite := by
  intro z x y n s a
  obtain ⟨hflag, hon⟩ := afterDraw_of_blank (s := (s.setFb blankScreen).setPc a) (x := x) (y := y) (n := n) pixel_blankScreen
  exact ⟨_, _, rfl, exec_drw x y n _, hflag, hon⟩

/-- Settles O39: from origin (60, 30) the sprite covers the four columns and the two rows that are left on the screen. -/
theorem drawAtCornerClips : Obligations.DrawAtCornerClips := by
  intro x y s hx hy hsprite hblank
  obtain ⟨hflag, hon⟩ := afterDraw_of_blank (x := x) (y := y) (n := 5#4) hblank
  refine ⟨_, exec_drw x y 5#4 s, hflag, fun r c => (hon r c).trans ⟨?_, fun ⟨hr, hc⟩ => ?_⟩⟩
  · rintro ⟨row, col, b, -, -, hr, hc, -⟩
    omega
  · have hbits : ∀ k : Fin 8, (0xFF#8).getLsbD (7 - k.val) = true := by decide
    have hrow : r.val - 30 < 5 := by omega
    have hcol : c.val - 60 < 8 := by omega
    exact ⟨r.val - 30, c.val - 60, 0xFF#8, hrow, hcol, by omega, by omega, hsprite _ hrow, hbits ⟨_, hcol⟩⟩

end Sys2Proof.Machine

/-! # The family of the unimplemented classes (44_unimplemented.md)

The meaning of each no-op instruction; and that every operation of the core's step commutes with exchanging the keypad, so that no
instruction reads it. -/

namespace Sys2Proof.Machine

/-! ### The no-op instructions (R90, R109) -/

section NoOps

variable (x y : RegIx) (n : Nibble) (nn : Byte) (nnn : Addr12) (s : State)

@[simp] theorem exec_nop0nnn : exec (.nop0nnn nnn) s = .next s := rfl

@[simp] theorem exec_nop8xyn : exec (.nop8xyn x y n) s = .next s := rfl

@[simp] theorem exec_nopBnnn : exec (.nopBnnn nnn) s = .next s := rfl

@[simp] theorem exec_nopCxnn : exec (.nopCxnn x nn) s = .next s := rfl

@[simp] theorem exec_nopExnn : exec (.nopExnn x nn) s = .next s := rfl

@[simp] theorem exec_nopFxnn : exec (.nopFxnn x nn) s = .next s := rfl

end NoOps

/-! ### The keypad exchanged -/

/-- The state with other keys down. -/
def State.withKeypad (s : State) (key : Vector Bool 16) : State := { s with key := key }

section Keypad

variable (s : State) (key : Vector Bool 16)

/-- A skip is taken by its condition, which compares registers and immediates (R126 to R129). -/
theorem skipIf_withKeypad (c : Bool) : (s.withKeypad key).skipIf c = (s.skipIf c).withKeypad key := by
  cases c <;> rfl

theorem faultPc_withKeypad (k : FaultKind) : faultPc k (s.withKeypad key) = faultPc k s := by
  cases k <;> rfl

theorem raiseFault_withKeypad (k : FaultKind) : (s.withKeypad key).raiseFault k = (s.raiseFault k).withKeypad key := by
  rw [State.raiseFault_eq, faultPc_withKeypad]
  rfl

theorem tickTimers_withKeypad (tick : Bool) : (s.withKeypad key).tickTimers tick = (s.tickTimers tick).withKeypad key := by
  unfold State.tickTimers
  split_ifs <;> rfl

/-- Whether the tick is taken is told by the run state, not by the keypad (R106). -/
theorem endIteration_withKeypad (tick : Bool) :
    endIteration tick (s.withKeypad key) = (endIteration tick s).withKeypad key := by
  have hrun : (s.withKeypad key).run = s.run := rfl
  unfold endIteration
  rw [hrun]
  cases s.run with
  | running => exact tickTimers_withKeypad s key tick
  | paused | quit => rfl

/-- RET takes its branch by the cursor (R120). -/
theorem execRet_withKeypad (x : Nibble) {t : State} (h : exec (.ret x) s = .next t) :
    exec (.ret x) (s.withKeypad key) = .next (t.withKeypad key) := by
  rcases execRet_cases x s with ⟨hempty, e⟩ | ⟨hlt, hne, e⟩
  · cases h.symm.trans e
    rw [execRet_underflows x (s := s.withKeypad key) hempty, raiseFault_withKeypad]
  · cases h.symm.trans e
    rcases execRet_cases x (s.withKeypad key) with ⟨hempty, _⟩ | ⟨_, _, e'⟩
    · exact absurd hempty hne
    · exact e'

/-- CALL takes its branch by the cursor (R122). -/
theorem execCall_withKeypad (nnn : Addr12) {t : State} (h : exec (.call nnn) s = .next t) :
    exec (.call nnn) (s.withKeypad key) = .next (t.withKeypad key) := by
  rcases execCall_cases nnn s with ⟨hfull, e⟩ | ⟨hroom, e⟩
  · cases h.symm.trans e
    rw [execCall_overflows nnn (s := s.withKeypad key) hfull, raiseFault_withKeypad]
  · cases h.symm.trans e
    rcases execCall_cases nnn (s.withKeypad key) with ⟨hfull, _⟩ | ⟨_, e'⟩
    · exact absurd hfull (Nat.ne_of_lt hroom)
    · exact e'

variable {s} {t : State}

/-- No instruction reads the keypad, the words of class 0xE included (R174). -/
theorem exec_withKeypad {i : Instr} (h : exec i s = .next t) : exec i (s.withKeypad key) = .next (t.withKeypad key) := by
  cases i with
  | ret x => exact execRet_withKeypad s key x h
  | call nnn => exact execCall_withKeypad s key nnn h
  | seImm | sneImm | seReg | sneReg =>
    cases h
    exact congrArg Host.Outcome.next (skipIf_withKeypad s key _)
  | cls | jp | ldImm | addImm | ldI | drw | nop0nnn | nop8xyn | nopBnnn | nopCxnn | nopExnn | nopFxnn =>
    cases h
    rfl

/-- An iteration does not read the keypad: the fetch reads memory and `pc` (R103, R104). -/
theorem iteration_withKeypad {tick : Bool} (h : iteration tick s = .next t) :
    iteration tick (s.withKeypad key) = .next (t.withKeypad key) := by
  rcases iteration_cases tick s with ⟨hnone, e⟩ | ⟨w, u, hf, he, e⟩
  · cases h.symm.trans e
    rcases iteration_cases tick (s.withKeypad key) with ⟨_, e'⟩ | ⟨_, _, hf', _⟩
    · rw [e', raiseFault_withKeypad]
    · cases hnone.symm.trans hf'
  · cases h.symm.trans e
    rcases iteration_cases tick (s.withKeypad key) with ⟨hnone, _⟩ | ⟨w', u', hf', he', e'⟩
    · cases hf.symm.trans hnone
    · cases hf.symm.trans hf'
      cases he'.symm.trans (exec_withKeypad key he)
      rw [e', endIteration_withKeypad]

/-- A step in PAUSED in which the core moves next takes the move off the schedule, and does nothing else (R101, R210). -/
theorem step_of_paused (hc : CoreMovesNext s) (hr : s.run = .paused) : step s = .next s.takeMove := by
  rcases step_cases s with ⟨hquit, _⟩ | ⟨e, rest, hm, _⟩ | ⟨_, _, h⟩ | ⟨_, hrunning, _⟩
  · cases hr.symm.trans hquit
  · exact absurd hm (hc e rest)
  · exact h
  · cases hr.symm.trans hrunning

/-- The core's own step does not read the keypad (R222). -/
theorem step_withKeypad (hc : CoreMovesNext s) (h : step s = .next t) : step (s.withKeypad key) = .next (t.withKeypad key) := by
  rcases step_cases s with ⟨_, e⟩ | ⟨event, rest, hm, _⟩ | ⟨_, hr, e⟩ | ⟨_, hr, e⟩
  · cases h.symm.trans e
  · exact absurd hm (hc event rest)
  · cases h.symm.trans e
    exact step_of_paused (s := s.withKeypad key) hc hr
  · rw [step_of_core (s := s.withKeypad key) hc hr]
    exact iteration_withKeypad key (e.symm.trans h)

end Keypad

/-! ### The obligations -/

/-- Settles O40: a word of one of the five classes decodes to that class's no-op, which keeps the state it runs in. -/
theorem unimplementedClassesDoNothing : Obligations.UnimplementedClassesDoNothing := by
  refine ⟨fun w s hclass => ?_, fun x y n nn nnn s => ⟨exec_nop8xyn x y n s, exec_nopBnnn nnn s, exec_nopCxnn x nn s,
    exec_nopExnn x nn s, exec_nopFxnn x nn s⟩⟩
  rcases hclass with h | h | h | h | h
  · rw [decode_nop8xyn h]; exact exec_nop8xyn _ _ _ s.advance
  · rw [decode_nopBnnn h]; exact exec_nopBnnn _ s.advance
  · rw [decode_nopCxnn h]; exact exec_nopCxnn _ _ s.advance
  · rw [decode_nopExnn h]; exact exec_nopExnn _ _ s.advance
  · rw [decode_nopFxnn h]; exact exec_nopFxnn _ _ s.advance

/-- Settles O41: a class-0 word that is neither CLS nor RET decodes to NOP_0NNN, which keeps the state it runs in. -/
theorem otherClass0WordsDoNothing : Obligations.OtherClass0WordsDoNothing := by
  refine ⟨fun w s hclass hcls hret => ?_, exec_nop0nnn⟩
  rw [decode_nop0nnn hclass hcls hret]
  exact exec_nop0nnn _ s.advance

/-- Settles O55: the core's step commutes with exchanging the keypad. -/
theorem keypadIsNeverRead : Obligations.KeypadIsNeverRead :=
  fun _ _ key hc h => step_withKeypad key hc h

end Sys2Proof.Machine

/-! # The family of exceptions (60_exceptions.md)

What each event of the host does to the state; which iterations fault, and the run state in which an iteration ends; what the tick
takes; and that construction alone sets the configuration. -/

namespace Sys2Proof.Machine

section Exceptions

variable {s t : State}

/-! ### The events of the host (R205 to R209) -/

/-- A host event before QUIT is applied (R205). -/
theorem hostEvent_of_ne_quit (e : HostEvent) (hr : s.run ≠ .quit) : hostEvent e s = .next (applyEvent e s) := by
  unfold hostEvent
  cases h : s.run with
  | running | paused => rfl
  | quit => exact absurd h hr

/-- No host event is enabled in QUIT (R211). -/
theorem hostEvent_of_quit (e : HostEvent) (hr : s.run = .quit) : hostEvent e s = .fault .machineQuit := by
  rw [hostEvent, hr]

/-- No move of the schedule is enabled in QUIT (R211). -/
theorem step_of_quit (hr : s.run = .quit) : step s = .fault .machineQuit := by
  rcases step_cases s with ⟨_, h⟩ | ⟨_, _, _, hne, _⟩ | ⟨_, hpaused, _⟩ | ⟨_, hrunning, _⟩
  · exact h
  · exact absurd hr hne
  · cases hr.symm.trans hpaused
  · cases hr.symm.trans hrunning

theorem State.setRun_self {r : RunState} (hr : s.run = r) : s.setRun r = s := by
  subst hr
  rfl

/-- Before QUIT a pause leaves PAUSED, whether or not it had an effect (R208, D16). -/
theorem State.pause_of_ne_quit (hr : s.run ≠ .quit) : s.pause = s.setRun .paused := by
  unfold State.pause
  cases h : s.run with
  | running => rfl
  | paused => exact (State.setRun_self h).symm
  | quit => exact absurd h hr

/-- Before QUIT a resume leaves RUNNING, whether or not it had an effect (R207, D16). -/
theorem State.resume_of_ne_quit (hr : s.run ≠ .quit) : s.resume = s.setRun .running := by
  unfold State.resume
  cases h : s.run with
  | running => exact (State.setRun_self h).symm
  | paused => rfl
  | quit => exact absurd h hr

/-- A change of the keypad and the run state keeps the rest of R30's tuple. -/
theorem keptButKeypadAndRun_update (s : State) (key : Vector Bool 16) (run : RunState) :
    KeptButKeypadAndRun s { s with key := key, run := run } :=
  ⟨⟨fun _ => rfl, rfl⟩, fun _ => rfl, rfl, rfl, ⟨rfl, rfl⟩, fun _ _ => rfl, rfl, rfl, rfl⟩

/-- A host event that changes the run state is a pause in RUNNING, a resume in PAUSED, or a quit (R207 to R209). -/
theorem applyEvent_run_cases {e : HostEvent} (h : (applyEvent e s).run ≠ s.run) :
    (e = .pause ∧ s.run = .running ∧ (applyEvent e s).run = .paused) ∨
    (e = .resume ∧ s.run = .paused ∧ (applyEvent e s).run = .running) ∨ (e = .quit ∧ (applyEvent e s).run = .quit) := by
  cases e with
  | key k pressed => exact absurd rfl h
  | pause =>
    rcases s.pause_cases with ⟨hr, hp⟩ | ⟨_, hp⟩
    · exact .inl ⟨rfl, hr, congrArg State.run hp⟩
    · exact absurd (congrArg State.run hp) h
  | resume =>
    rcases s.resume_cases with ⟨hr, hp⟩ | ⟨_, hp⟩
    · exact .inr (.inl ⟨rfl, hr, congrArg State.run hp⟩)
    · exact absurd (congrArg State.run hp) h
  | quit => exact .inr (.inr ⟨rfl, rfl⟩)

/-! ### The tick (R213, R214) -/

theorem endIteration_of_running (tick : Bool) (hr : s.run = .running) : endIteration tick s = s.tickTimers tick := by
  rw [endIteration, hr]

/-- Without a tick the end of an iteration does nothing (R106). -/
@[simp] theorem endIteration_false (s : State) : endIteration false s = s := by
  have htimers : s.tickTimers false = s := by
    unfold State.tickTimers
    rw [countDown_false, countDown_false]
    split_ifs <;> rfl
  unfold endIteration
  cases s.run with
  | running => exact htimers
  | paused | quit => rfl

/-- A taken tick on the delay timer (R214). -/
theorem tickTimers_true_dt (s : State) :
    (s.tickTimers true).dt.toNat = if Config.timersWired then s.dt.toNat - 1 else s.dt.toNat := by
  unfold State.tickTimers
  split_ifs
  · exact countDown_true_toNat s.dt
  · rfl

/-- A taken tick on the sound timer (R214). -/
theorem tickTimers_true_st (s : State) :
    (s.tickTimers true).st.toNat = if Config.timersWired then s.st.toNat - 1 else s.st.toNat := by
  unfold State.tickTimers
  split_ifs
  · exact countDown_true_toNat s.st
  · rfl

/-! ### Which iterations fault, and the run state in which an iteration ends (R200 to R202) -/

/-- Two instructions fault, each at one end of the stack (R202). -/
theorem instrFault?_isSome_iff (i : Instr) (s : State) :
    (instrFault? i s).isSome = true ↔
      (∃ x, i = .ret x ∧ s.sp.val = 0) ∨ (∃ nnn, i = .call nnn ∧ s.sp.val = 12) := by
  constructor
  · intro h
    obtain ⟨k, hk⟩ := Option.isSome_iff_exists.1 h
    rcases instrFault?_cases hk with ⟨⟨x, rfl⟩, h0, _⟩ | ⟨⟨nnn, rfl⟩, h12, _⟩
    · exact .inl ⟨x, rfl, h0⟩
    · exact .inr ⟨nnn, rfl, h12⟩
  · rintro (⟨x, rfl, h0⟩ | ⟨nnn, rfl, h12⟩)
    · rw [instrFault?, if_pos h0]
      rfl
    · rw [instrFault?, if_pos h12]
      rfl

/-- Where the bound check passes, the fault is the instruction's. -/
theorem faultRaised?_of_fetch {w : Word} (hf : fetchWord? s.mem s.pc.toNat = some w) :
    faultRaised? s = instrFault? (decode w) s := by
  rw [faultRaised?, hf]

/-- The three faults, told from `pc`, the current instruction and the cursor (R200). -/
theorem faultRaised?_isSome_iff (hc : CoreMovesNext s) (hr : s.run = .running) :
    (faultRaised? s).isSome = true ↔ 0x0FFE < s.pc.toNat ∨
      (∃ x, currentInstr? s = some (.ret x) ∧ s.sp.val = 0) ∨ (∃ nnn, currentInstr? s = some (.call nnn) ∧ s.sp.val = 12) := by
  by_cases hpc : 0x0FFE < s.pc.toNat
  · simp [faultRaised?_of_pc_beyond hpc, hpc]
  · obtain ⟨w, hf⟩ := fetchWord?_exists s.mem s.pc.toNat (Nat.le_of_not_lt hpc)
    have hi : currentInstr? s = some (decode w) := (currentInstr?_eq_some s _).2 ⟨hc, hr, w, hf, rfl⟩
    rw [faultRaised?_of_fetch hf, instrFault?_isSome_iff, hi]
    simp [hpc]

/-- An instruction that does not fault keeps the run state (R202). -/
theorem exec_run_of_no_fault {i : Instr} (hn : instrFault? i s = none) (h : exec i s = .next t) : t.run = s.run := by
  have hnot : ¬ (instrFault? i s).isSome = true := by simp [hn]
  rw [instrFault?_isSome_iff] at hnot
  cases effect_of_exec h with
  | underflow x =>
    obtain ⟨u, hu, _, hkept⟩ := execRet_pops x (s := s) fun h0 => hnot (.inl ⟨x, rfl, h0⟩)
    cases h.symm.trans hu
    exact hkept.run
  | overflow nnn =>
    obtain ⟨u, hu, _, _, hkept⟩ := execCall_pushes nnn (s := s) fun h12 => hnot (.inr ⟨nnn, rfl, h12⟩)
    cases h.symm.trans hu
    exact hkept.run
  | idle | skip | jump | load | add | index | clear | draw | call | ret => rfl

@[simp] theorem endIteration_run (tick : Bool) (s : State) : (endIteration tick s).run = s.run := by
  obtain ⟨dt, st, h, _⟩ := endIteration_eq tick s
  rw [h]
  rfl

/-- An iteration ends in PAUSED if it raises a fault, and in RUNNING otherwise (R201, R202). -/
theorem iteration_run {tick : Bool} (hr : s.run = .running) (h : iteration tick s = .next t) :
    t.run = if (faultRaised? s).isSome then .paused else .running := by
  cases hk : faultRaised? s with
  | some k =>
    cases h.symm.trans (iteration_of_fault tick hk)
    rfl
  | none =>
    rcases iteration_cases tick s with ⟨hf, _⟩ | ⟨w, u, hf, he, hi⟩
    · rw [faultRaised?, hf] at hk
      cases hk
    · cases h.symm.trans hi
      rw [faultRaised?_of_fetch hf] at hk
      rw [endIteration_run, exec_run_of_no_fault (s := s.advance) hk he]
      exact hr

/-! ### The passes of the loop and what they present (R210, R213, R220) -/

/-- A RUNNING pass is an iteration with a fresh draw (R100). -/
theorem loopPass_of_running (hr : s.run = .running) : loopPass s = iteration (Config.tickDraw s.draws) s.countDraw := by
  rw [loopPass, hr]

theorem loopPresents_of_paused (hr : s.run = .paused) : loopPresents s = some (frame s) := by
  rw [loopPresents, hr]

theorem loopPresents_of_running (hr : s.run = .running) (h : loopPass s = .next t) :
    loopPresents s = if t.run = .running ∧ Config.tickDraw s.draws = true then some (frame t) else none := by
  simp only [loopPresents, hr, h]

/-! ### The configuration (R230) -/

/-- No step changes the configuration. -/
theorem step_conf (h : step s = .next t) : t.conf = s.conf := by
  rcases step_next_cases h with ⟨_, _, _, rfl, _⟩ | ⟨_, _, ⟨_, _, rfl⟩ | ran⟩
  · rfl
  · rfl
  · obtain ⟨_, u, _, _, _, _, he, rfl, _⟩ := ran
    obtain ⟨_, _, _, hconf⟩ := exec_devices he
    exact hconf

/-- No event of the host changes the configuration. -/
theorem hostEvent_conf {e : HostEvent} (h : hostEvent e s = .next t) : t.conf = s.conf := by
  have hr : s.run ≠ .quit := fun hquit => by cases h.symm.trans (hostEvent_of_quit e hquit)
  cases h.symm.trans (hostEvent_of_ne_quit e hr)
  obtain ⟨_, _, happly⟩ := applyEvent_eq e s
  rw [happly]

end Exceptions

/-! ### The obligations -/

/-- Settles O17: a step before QUIT answers a next state, and in QUIT no move is enabled. -/
theorem quitIsTerminal : Obligations.QuitIsTerminal := by
  refine fun s => ⟨⟨fun hstop => ?_, step_of_quit⟩, fun hr e => hostEvent_of_quit e hr⟩
  by_contra hr
  obtain ⟨t, ht⟩ := step_next hr
  cases hstop.symm.trans ht

/-- Settles O18: the end of a running iteration is the tick of the timers, under either value of the parameter of D8. -/
theorem tickDecrementsTimers : Obligations.TickDecrementsTimers := by
  intro s hr
  obtain ⟨dt, st, hend, _⟩ := endIteration_eq true s
  have hrest : { endIteration true s with dt := s.dt, st := s.st } = s := by
    rw [hend]
    rfl
  refine ⟨?_, ?_, hrest, endIteration_false s⟩ <;> rw [endIteration_of_running true hr]
  · exact tickTimers_true_dt s
  · exact tickTimers_true_st s

/-- Settles O42: the step of a fault is known, and it updates `pc`, the run state and the model's own fields. -/
theorem faultOnlyPauses : Obligations.FaultOnlyPauses :=
  fun _ _ hc hr hf => ⟨_, step_of_fault hc hr hf, rfl, rfl, keptButPcAndRun_update ..⟩

/-- Settles O43: the step is an iteration, whose end tells whether it raised one of the three faults. -/
theorem stepFaultsExactlyWhen : Obligations.StepFaultsExactlyWhen := by
  intro s hc hr
  obtain ⟨t, ht⟩ := iteration_next (Config.tickDraw s.draws) s.takeMove.countDraw
  exact ⟨t, (step_of_core hc hr).trans ht, iteration_run (s := s.takeMove.countDraw) hr ht, faultRaised?_isSome_iff hc hr⟩

/-- Settles O45: the event writes one entry of the keypad. -/
theorem keyEventSetsOneKey : Obligations.KeyEventSetsOneKey :=
  fun k pressed _ hr => ⟨_, hostEvent_of_ne_quit (.key k pressed) hr, Vector.getElem_set_self k.isLt,
    fun j hj => Vector.getElem_set_ne k.isLt j.isLt fun hkj => hj (Fin.ext hkj.symm), rfl, keptButKeypadAndRun_update .., rfl, rfl⟩

/-- Settles O46: neither RUNNING nor PAUSED is QUIT, so the event is applied. -/
theorem quitIntentQuits : Obligations.QuitIntentQuits := by
  intro s hr
  have hne : s.run ≠ .quit := by rcases hr with h | h <;> simp [h]
  exact ⟨_, hostEvent_of_ne_quit .quit hne, rfl, rfl, keptButKeypadAndRun_update .., rfl, rfl⟩

/-- Settles O47: before QUIT the two intents set the run state they name, whichever it was. -/
theorem pauseAndResumeIntents : Obligations.PauseAndResumeIntents := by
  intro s hr
  have hpause : hostEvent .pause s = .next (s.setRun .paused) := by
    rw [hostEvent_of_ne_quit .pause hr, applyEvent, State.pause_of_ne_quit hr]
  have hresume : hostEvent .resume s = .next (s.setRun .running) := by
    rw [hostEvent_of_ne_quit .resume hr, applyEvent, State.resume_of_ne_quit hr]
  exact ⟨⟨_, hpause, rfl, rfl, keptButKeypadAndRun_update .., rfl, rfl⟩,
    ⟨_, hresume, rfl, rfl, keptButKeypadAndRun_update .., rfl, rfl⟩⟩

/-- Settles O48: of the moves of a step, a PAUSED pass keeps the run state, an iteration changes it by a fault, and a host event
by its intent. -/
theorem runStateTransitions : Obligations.RunStateTransitions := by
  intro s t h hne
  rcases step_cases s with ⟨_, hs⟩ | ⟨e, rest, hm, hquit, hs⟩ | ⟨_, _, hs⟩ | ⟨hc, hr, hs⟩
  · cases h.symm.trans hs
  · cases h.symm.trans hs
    rcases applyEvent_run_cases hne with ⟨rfl, hfrom, hto⟩ | ⟨rfl, hfrom, hto⟩ | ⟨rfl, hto⟩
    · exact .inl ⟨hfrom, hto, .inr ⟨rest, hm⟩⟩
    · exact .inr (.inl ⟨hfrom, hto, rest, hm⟩)
    · exact .inr (.inr ⟨hquit, hto, rest, hm⟩)
  · cases h.symm.trans hs
    exact absurd rfl hne
  · have hrun : t.run = if (faultRaised? s).isSome then .paused else .running :=
      iteration_run (s := s.takeMove.countDraw) hr (hs.symm.trans h)
    split_ifs at hrun with hfault
    · exact .inl ⟨hr, hrun, .inl ⟨hc, hfault⟩⟩
    · exact absurd (hrun.trans hr.symm) hne

/-- Settles O49: the step takes the move off the schedule, and the pass presents the state's own frame. -/
theorem pausedIsQuiescent : Obligations.PausedIsQuiescent :=
  fun _ hr hc => ⟨step_of_paused hc hr, loopPresents_of_paused hr, rfl⟩

/-- Settles O50: a RUNNING pass ends in RUNNING exactly when no fault was raised. -/
theorem ticksPresentFrames : Obligations.TicksPresentFrames := by
  intro s hr
  obtain ⟨t, ht⟩ := iteration_next (Config.tickDraw s.draws) s.countDraw
  have hpass : loopPass s = .next t := (loopPass_of_running hr).trans ht
  have hrun : t.run = if (faultRaised? s).isSome then .paused else .running := iteration_run (s := s.countDraw) hr ht
  have hno : t.run = .running ↔ faultRaised? s = none := by
    rw [hrun]
    cases faultRaised? s <;> simp
  refine ⟨t, hpass, ?_, rfl⟩
  rw [loopPresents_of_running hr hpass]
  simp only [hno, and_comm]

/-- Settles O60: construction gives the configuration, and neither a step nor a host event writes it. -/
theorem configurationIsSetOnce : Obligations.ConfigurationIsSetOnce := by
  refine ⟨fun conf rom s h => ?_, fun _ _ => step_conf, fun _ _ _ => hostEvent_conf, fun _ => rfl⟩
  obtain ⟨_, rfl⟩ := construct_eq_next h
  rfl

end Sys2Proof.Machine

/-! # The family of reset and hazards (70_reset_and_hazards.md)

What construction answers for each length of ROM; and what each address reads as after it. -/

namespace Sys2Proof.Machine

section Construction

variable {conf : Config.HostConfig} {rom : List Byte}

/-! ### The two answers of construction (R241, R242) -/

/-- A ROM of an accepted length gives the reset state with the ROM written and the configuration set. -/
theorem construct_of_accepted (h : 1 ≤ rom.length ∧ rom.length ≤ Config.maxRom) :
    construct conf rom = .next ((State.reset.setMem (State.reset.mem.writeBytes Config.progStart rom)).setConf conf) :=
  if_pos h

theorem construct_of_not_accepted (h : ¬ (1 ≤ rom.length ∧ rom.length ≤ Config.maxRom)) :
    construct conf rom = .refused (.romLength rom.length) :=
  if_neg h

theorem construct_next_iff : (∃ s, construct conf rom = .next s) ↔ 1 ≤ rom.length ∧ rom.length ≤ Config.maxRom := by
  constructor
  · rintro ⟨s, hs⟩
    by_contra h
    rw [construct_of_not_accepted h] at hs
    cases hs
  · exact fun h => ⟨_, construct_of_accepted h⟩

/-! ### Memory after construction (R243) -/

/-- After construction an address holds the ROM's byte where the ROM lies, and the reset contents elsewhere. -/
theorem read?_of_construct {s : State} (h : construct conf rom = .next s) {a : Nat} (ha : a < Config.memSize) :
    s.mem.read? a = if 0x200 ≤ a ∧ a < 0x200 + rom.length then rom[a - 0x200]? else some (resetByte a) := by
  obtain ⟨hlen, rfl⟩ := construct_eq_next h
  have hfits : Config.progStart + rom.length ≤ Config.memSize := by
    simp only [Config.progStart, Config.memSize, Config.maxRom] at hlen ⊢
    omega
  rw [← Memory.read?_nothingListed a ha]
  exact Memory.read?_writeBytes rom State.reset.mem Config.progStart a inv_reset.memForm hfits

/-- Writing what the reset contents say, in memory that lists nothing, lists nothing. -/
theorem Memory.write_resetByte (a : Nat) : Memory.write ⟨[]⟩ a (resetByte a) = ⟨[]⟩ := by
  simp [Memory.write, cellsSet, cellsCons]

end Construction

/-! ### The obligations of 70_reset_and_hazards.md -/

/-- Settles O8: construction tests the ROM's length and nothing else. -/
theorem constructionSucceedsExactly : Obligations.ConstructionSucceedsExactly :=
  fun _ _ => ⟨construct_next_iff, construct_of_not_accepted⟩

/-- Settles O9: the ROM lies above the font table, so outside the ROM the reset contents are left, which are FONT and zero. -/
theorem constructedMemoryLayout : Obligations.ConstructedMemoryLayout := by
  intro conf rom s h
  have hinv : Inv s := inv_of_construct h
  refine ⟨fun k hk => ?rom, hinv.fontIntact, fun a ha hfont hrom => ?zero, hinv.memForm⟩
  case rom =>
    have hmax : rom.length ≤ 3584 := (construct_eq_next h).1
    rw [read?_of_construct h (show 0x200 + k < 4096 by omega), if_pos (by omega), Nat.add_sub_cancel_left]
  case zero =>
    rw [read?_of_construct h ha, if_neg hrom, resetByte_other a hfont]

/-- Settles O56: at reset by evaluation of its fields, and construction writes the ROM above the font table. -/
theorem invariantAtConstruction : Obligations.InvariantAtConstruction :=
  ⟨inv_reset, fun _ _ _ => inv_of_construct⟩

/-- Settles O12: the one byte is what the reset contents say at 0x200, so memory lists nothing after it is written. -/
theorem resetIsOneZeroByteRom : Obligations.ResetIsOneZeroByteRom := by
  have hzero : resetByte Config.progStart = 0#8 := resetByte_other _ (by decide)
  have hmem : State.reset.mem.writeBytes Config.progStart [0#8] = State.reset.mem := by
    rw [← hzero]
    exact Memory.write_resetByte Config.progStart
  unfold Obligations.ResetIsOneZeroByteRom
  rw [construct_of_accepted (by decide), hmem]
  rfl

end Sys2Proof.Machine

/-! # The family of the spec's own decisions on reset (92_eei_decisions.md D10, D11)

What construction leaves on the screen, in the keypad and on the stack. -/

namespace Sys2Proof.Machine

/-- Settles O11: construction writes only memory and the configuration, and at reset the screen is blank, no key is down, and
the stack is filled with zero. -/
theorem constructedScreenKeypadStack : Obligations.ConstructedScreenKeypadStack := by
  intro conf rom s h
  obtain ⟨_, rfl⟩ := construct_eq_next h
  refine ⟨fun r c => ?screen, fun k => ?keypad, fun k => ?stack⟩
  case screen => exact pixel_blankScreen r c
  case keypad => exact Vector.getElem_replicate k.isLt
  case stack => exact Vector.getElem_replicate k.isLt

end Sys2Proof.Machine
